-- ==== Sys2Proof/Word.lean ====
section
/-! DEFINITION. The bit-vector types of the block: bytes, 16-bit words, nibbles and 12-bit addresses (R8, R20, R21). -/

namespace Sys2Proof

/-- A register, timer or memory byte: 8 bits, unsigned (R8, R21). -/
abbrev Byte := BitVec 8

/-- An instruction word, PC, I or a stack slot: 16 bits, unsigned (R8, R9, R110). -/
abbrev Word := BitVec 16

/-- A 4-bit field: a register index x or y, or the count n (R111). -/
abbrev Nibble := BitVec 4

/-- The 12-bit address field nnn (R7, R111). -/
abbrev Addr12 := BitVec 12

end Sys2Proof
end

