-- ==== Sys2Proof/Syntax.lean ====
section
/-! DEFINITION. The instruction set: the 36 tags of the decoder, its instruction record, and the 35 instructions with their operands (R111, R113, R121). -/

namespace Sys2Proof

/-- The decoder's tag output: the 35 instruction tags and Undefined, in the order of R121. -/
inductive Tag where
  | machineRoutine | clearScreen | ret | jump | call
  | skipIfEqual | skipIfNotEqual | skipIfRegEqual
  | setReg | addImmediate
  | setRegToReg | or | and | xor | addRegToReg | subRegFromReg | shiftRight | subReverse | shiftLeft
  | skipIfRegNotEqual | setIndex | jumpOffset | setRand | draw
  | skipIfKeyDown | skipIfKeyUp
  | getDelay | waitKey | setDelay | setSound | addIndex | fontAddr | bcd | storeRegs | loadRegs
  | undefined
  deriving DecidableEq, Repr

/-- The decoder's output (R113): the tag and all five fields, whatever the tag. Transient, never state (R52). -/
structure InstrRecord where
  tag : Tag
  x   : Nibble
  y   : Nibble
  n   : Nibble
  nn  : Byte
  nnn : Addr12
  deriving DecidableEq, Repr

/-- The 35 instructions with the operands their words carry (R121). The nibble n of `skipIfRegEqual` and
`skipIfRegNotEqual` is the one their handlers ignore (R118, R185, R186); it is kept so that no bit of a word is lost. -/
inductive Instr where
  | machineRoutine (nnn : Addr12)
  | clearScreen
  | ret
  | jump (nnn : Addr12)
  | call (nnn : Addr12)
  | skipIfEqual (x : Nibble) (nn : Byte)
  | skipIfNotEqual (x : Nibble) (nn : Byte)
  | skipIfRegEqual (x y n : Nibble)
  | setReg (x : Nibble) (nn : Byte)
  | addImmediate (x : Nibble) (nn : Byte)
  | setRegToReg (x y : Nibble)
  | or (x y : Nibble)
  | and (x y : Nibble)
  | xor (x y : Nibble)
  | addRegToReg (x y : Nibble)
  | subRegFromReg (x y : Nibble)
  | shiftRight (x y : Nibble)
  | subReverse (x y : Nibble)
  | shiftLeft (x y : Nibble)
  | skipIfRegNotEqual (x y n : Nibble)
  | setIndex (nnn : Addr12)
  | jumpOffset (nnn : Addr12)
  | setRand (x : Nibble) (nn : Byte)
  | draw (x y n : Nibble)
  | skipIfKeyDown (x : Nibble)
  | skipIfKeyUp (x : Nibble)
  | getDelay (x : Nibble)
  | waitKey (x : Nibble)
  | setDelay (x : Nibble)
  | setSound (x : Nibble)
  | addIndex (x : Nibble)
  | fontAddr (x : Nibble)
  | bcd (x : Nibble)
  | storeRegs (x : Nibble)
  | loadRegs (x : Nibble)
  deriving DecidableEq, Repr

/-- The tag of an instruction (R121). -/
def Instr.tag : Instr → Tag
  | .machineRoutine _ => .machineRoutine
  | .clearScreen => .clearScreen
  | .ret => .ret
  | .jump _ => .jump
  | .call _ => .call
  | .skipIfEqual _ _ => .skipIfEqual
  | .skipIfNotEqual _ _ => .skipIfNotEqual
  | .skipIfRegEqual _ _ _ => .skipIfRegEqual
  | .setReg _ _ => .setReg
  | .addImmediate _ _ => .addImmediate
  | .setRegToReg _ _ => .setRegToReg
  | .or _ _ => .or
  | .and _ _ => .and
  | .xor _ _ => .xor
  | .addRegToReg _ _ => .addRegToReg
  | .subRegFromReg _ _ => .subRegFromReg
  | .shiftRight _ _ => .shiftRight
  | .subReverse _ _ => .subReverse
  | .shiftLeft _ _ => .shiftLeft
  | .skipIfRegNotEqual _ _ _ => .skipIfRegNotEqual
  | .setIndex _ => .setIndex
  | .jumpOffset _ => .jumpOffset
  | .setRand _ _ => .setRand
  | .draw _ _ _ => .draw
  | .skipIfKeyDown _ => .skipIfKeyDown
  | .skipIfKeyUp _ => .skipIfKeyUp
  | .getDelay _ => .getDelay
  | .waitKey _ => .waitKey
  | .setDelay _ => .setDelay
  | .setSound _ => .setSound
  | .addIndex _ => .addIndex
  | .fontAddr _ => .fontAddr
  | .bcd _ => .bcd
  | .storeRegs _ => .storeRegs
  | .loadRegs _ => .loadRegs

end Sys2Proof
end

