-- ==== Sys2Proof/WellFormed.lean ====
section
/-! DEFINITION. Which instruction terms stand for a word of their own (R114). The operand widths are in the types, so the two exact words of group 0 are the only check. -/

namespace Sys2Proof

/-- A MachineRoutine is any 0nnn other than 00E0 and 00EE (R114); every other instruction admits every operand. -/
def Instr.wellFormed : Instr → Bool
  | .machineRoutine nnn => nnn != 0x0E0#12 && nnn != 0x0EE#12
  | .clearScreen => true
  | .ret => true
  | .jump _ => true
  | .call _ => true
  | .skipIfEqual _ _ => true
  | .skipIfNotEqual _ _ => true
  | .skipIfRegEqual _ _ _ => true
  | .setReg _ _ => true
  | .addImmediate _ _ => true
  | .setRegToReg _ _ => true
  | .or _ _ => true
  | .and _ _ => true
  | .xor _ _ => true
  | .addRegToReg _ _ => true
  | .subRegFromReg _ _ => true
  | .shiftRight _ _ => true
  | .subReverse _ _ => true
  | .shiftLeft _ _ => true
  | .skipIfRegNotEqual _ _ _ => true
  | .setIndex _ => true
  | .jumpOffset _ => true
  | .setRand _ _ => true
  | .draw _ _ _ => true
  | .skipIfKeyDown _ => true
  | .skipIfKeyUp _ => true
  | .getDelay _ => true
  | .waitKey _ => true
  | .setDelay _ => true
  | .setSound _ => true
  | .addIndex _ => true
  | .fontAddr _ => true
  | .bcd _ => true
  | .storeRegs _ => true
  | .loadRegs _ => true

end Sys2Proof
end

