-- ==== Sys2Proof/Decode.lean ====
section
/-! DEFINITION. The decoder of R113 to R118, the opcode table as rows of match, mask and excludes (R123), and the encoder written from the same patterns. -/

namespace Sys2Proof

/-! ## Fields (R111) -/

/-- The leading nibble w[15:12]. -/
def leadOf (w : Word) : Nibble := w.extractLsb' 12 4
/-- x = w[11:8] (R111). -/
def xOf (w : Word) : Nibble := w.extractLsb' 8 4
/-- y = w[7:4] (R111). -/
def yOf (w : Word) : Nibble := w.extractLsb' 4 4
/-- n = w[3:0] (R111). -/
def nOf (w : Word) : Nibble := w.extractLsb' 0 4
/-- nn = w[7:0] (R111). -/
def nnOf (w : Word) : Byte := w.extractLsb' 0 8
/-- nnn = w[11:0] (R111). -/
def nnnOf (w : Word) : Addr12 := w.extractLsb' 0 12

/-! ## The decoder -/

/-- Group 0 decodes on the full word; the exact matches come before the catch-all (R114, R123). -/
def decodeGroup0 (w : Word) : Tag :=
  if w = 0x00E0#16 then .clearScreen
  else if w = 0x00EE#16 then .ret
  else .machineRoutine

/-- Group 8 decodes on the trailing nibble (R115). -/
def decodeGroup8 (n : Nibble) : Tag :=
  if n = 0x0#4 then .setRegToReg
  else if n = 0x1#4 then .or
  else if n = 0x2#4 then .and
  else if n = 0x3#4 then .xor
  else if n = 0x4#4 then .addRegToReg
  else if n = 0x5#4 then .subRegFromReg
  else if n = 0x6#4 then .shiftRight
  else if n = 0x7#4 then .subReverse
  else if n = 0xE#4 then .shiftLeft
  else .undefined

/-- Group E decodes on the low byte, the x nibble masked off (R116, C2). -/
def decodeGroupE (nn : Byte) : Tag :=
  if nn = 0x9E#8 then .skipIfKeyDown
  else if nn = 0xA1#8 then .skipIfKeyUp
  else .undefined

/-- Group F decodes on the low byte, the x nibble masked off: nine patterns (R117, C1). -/
def decodeGroupF (nn : Byte) : Tag :=
  if nn = 0x07#8 then .getDelay
  else if nn = 0x0A#8 then .waitKey
  else if nn = 0x15#8 then .setDelay
  else if nn = 0x18#8 then .setSound
  else if nn = 0x1E#8 then .addIndex
  else if nn = 0x29#8 then .fontAddr
  else if nn = 0x33#8 then .bcd
  else if nn = 0x55#8 then .storeRegs
  else if nn = 0x65#8 then .loadRegs
  else .undefined

/-- The tag of a word: the pseudocode of R113, by leading nibble. -/
def decodeTag (w : Word) : Tag :=
  if leadOf w = 0x0#4 then decodeGroup0 w
  else if leadOf w = 0x1#4 then .jump
  else if leadOf w = 0x2#4 then .call
  else if leadOf w = 0x3#4 then .skipIfEqual
  else if leadOf w = 0x4#4 then .skipIfNotEqual
  else if leadOf w = 0x5#4 then .skipIfRegEqual
  else if leadOf w = 0x6#4 then .setReg
  else if leadOf w = 0x7#4 then .addImmediate
  else if leadOf w = 0x8#4 then decodeGroup8 (nOf w)
  else if leadOf w = 0x9#4 then .skipIfRegNotEqual
  else if leadOf w = 0xA#4 then .setIndex
  else if leadOf w = 0xB#4 then .jumpOffset
  else if leadOf w = 0xC#4 then .setRand
  else if leadOf w = 0xD#4 then .draw
  else if leadOf w = 0xE#4 then decodeGroupE (nnOf w)
  else decodeGroupF (nnOf w)

/-- `decode(w) -> (tag, x, y, n, nn, nnn)` of R113: pure and total, all five fields for every word. -/
def decodeRecord (w : Word) : InstrRecord where
  tag := decodeTag w
  x := xOf w
  y := yOf w
  n := nOf w
  nn := nnOf w
  nnn := nnnOf w

/-- The instruction a record names, with the operands its rule uses; none for the tag Undefined (R121). -/
def InstrRecord.toInstr (r : InstrRecord) : Option Instr :=
  match r.tag with
  | .machineRoutine => some (.machineRoutine r.nnn)
  | .clearScreen => some .clearScreen
  | .ret => some .ret
  | .jump => some (.jump r.nnn)
  | .call => some (.call r.nnn)
  | .skipIfEqual => some (.skipIfEqual r.x r.nn)
  | .skipIfNotEqual => some (.skipIfNotEqual r.x r.nn)
  | .skipIfRegEqual => some (.skipIfRegEqual r.x r.y r.n)
  | .setReg => some (.setReg r.x r.nn)
  | .addImmediate => some (.addImmediate r.x r.nn)
  | .setRegToReg => some (.setRegToReg r.x r.y)
  | .or => some (.or r.x r.y)
  | .and => some (.and r.x r.y)
  | .xor => some (.xor r.x r.y)
  | .addRegToReg => some (.addRegToReg r.x r.y)
  | .subRegFromReg => some (.subRegFromReg r.x r.y)
  | .shiftRight => some (.shiftRight r.x r.y)
  | .subReverse => some (.subReverse r.x r.y)
  | .shiftLeft => some (.shiftLeft r.x r.y)
  | .skipIfRegNotEqual => some (.skipIfRegNotEqual r.x r.y r.n)
  | .setIndex => some (.setIndex r.nnn)
  | .jumpOffset => some (.jumpOffset r.nnn)
  | .setRand => some (.setRand r.x r.nn)
  | .draw => some (.draw r.x r.y r.n)
  | .skipIfKeyDown => some (.skipIfKeyDown r.x)
  | .skipIfKeyUp => some (.skipIfKeyUp r.x)
  | .getDelay => some (.getDelay r.x)
  | .waitKey => some (.waitKey r.x)
  | .setDelay => some (.setDelay r.x)
  | .setSound => some (.setSound r.x)
  | .addIndex => some (.addIndex r.x)
  | .fontAddr => some (.fontAddr r.x)
  | .bcd => some (.bcd r.x)
  | .storeRegs => some (.storeRegs r.x)
  | .loadRegs => some (.loadRegs r.x)
  | .undefined => none

/-- The instruction of a word; none exactly where the tag is Undefined (R113, R119). -/
def decode (w : Word) : Option Instr := (decodeRecord w).toInstr

/-- The tag index of R121, a 6-bit number for hardware that encodes the tag. -/
def Tag.index : Tag → BitVec 6
  | .machineRoutine => 0  | .clearScreen => 1  | .ret => 2  | .jump => 3  | .call => 4
  | .skipIfEqual => 5  | .skipIfNotEqual => 6  | .skipIfRegEqual => 7
  | .setReg => 8  | .addImmediate => 9
  | .setRegToReg => 10 | .or => 11 | .and => 12 | .xor => 13 | .addRegToReg => 14
  | .subRegFromReg => 15 | .shiftRight => 16 | .subReverse => 17 | .shiftLeft => 18
  | .skipIfRegNotEqual => 19 | .setIndex => 20 | .jumpOffset => 21 | .setRand => 22 | .draw => 23
  | .skipIfKeyDown => 24 | .skipIfKeyUp => 25
  | .getDelay => 26 | .waitKey => 27 | .setDelay => 28 | .setSound => 29 | .addIndex => 30
  | .fontAddr => 31 | .bcd => 32 | .storeRegs => 33 | .loadRegs => 34
  | .undefined => 35

/-! ## Bytes -/

/-- The word of two bytes as memory holds them: the byte at the lower address is bits 15:8 (R83). -/
def wordOfBytes (hi lo : Byte) : Word := hi ++ lo

/-- The two bytes of a word as memory holds them, the lower address first (R83). -/
def bytesOfWord (w : Word) : Byte × Byte := (w.extractLsb' 8 8, w.extractLsb' 0 8)

/-- Why a byte sequence is no instruction. -/
inductive DecodeError where
  /-- Fewer than the two bytes of a word (R110). -/
  | truncated
  /-- A word whose tag is Undefined (R119); the machine runs it as a no-op (R157). -/
  | undefinedWord (w : Word)
  deriving DecidableEq, Repr

/-- Decoding from bytes, total: the instruction and the bytes after it, or the reason there is none (R83, R110, R113). -/
def decodeBytes : List Byte → Except DecodeError (Instr × List Byte)
  | hi :: lo :: rest =>
    match decode (wordOfBytes hi lo) with
    | some i => .ok (i, rest)
    | none => .error (.undefinedWord (wordOfBytes hi lo))
  | _ => .error .truncated

/-! ## The opcode table as data -/

/-- One row of the opcode table: a word matches where its masked bits equal `pattern` and it is not excluded (R123). -/
structure OpcodeRow where
  tag      : Tag
  pattern  : Word
  mask     : Word
  excludes : List Word
  deriving DecidableEq, Repr

/-- Whether a row matches a word: the row's match and mask, and its excludes list (R123). -/
def OpcodeRow.fits (r : OpcodeRow) (w : Word) : Bool :=
  w &&& r.mask == r.pattern && !r.excludes.contains w

/-- The rows of groups 0 to 7 (R114, R118). -/
def opcodeRows0to7 : List OpcodeRow :=
  [⟨.machineRoutine, 0x0000, 0xF000, [0x00E0, 0x00EE]⟩, ⟨.clearScreen, 0x00E0, 0xFFFF, []⟩,
   ⟨.ret, 0x00EE, 0xFFFF, []⟩, ⟨.jump, 0x1000, 0xF000, []⟩, ⟨.call, 0x2000, 0xF000, []⟩,
   ⟨.skipIfEqual, 0x3000, 0xF000, []⟩, ⟨.skipIfNotEqual, 0x4000, 0xF000, []⟩,
   ⟨.skipIfRegEqual, 0x5000, 0xF000, []⟩, ⟨.setReg, 0x6000, 0xF000, []⟩, ⟨.addImmediate, 0x7000, 0xF000, []⟩]

/-- The rows of group 8 (R115). -/
def opcodeRows8 : List OpcodeRow :=
  [⟨.setRegToReg, 0x8000, 0xF00F, []⟩, ⟨.or, 0x8001, 0xF00F, []⟩, ⟨.and, 0x8002, 0xF00F, []⟩,
   ⟨.xor, 0x8003, 0xF00F, []⟩, ⟨.addRegToReg, 0x8004, 0xF00F, []⟩, ⟨.subRegFromReg, 0x8005, 0xF00F, []⟩,
   ⟨.shiftRight, 0x8006, 0xF00F, []⟩, ⟨.subReverse, 0x8007, 0xF00F, []⟩, ⟨.shiftLeft, 0x800E, 0xF00F, []⟩]

/-- The rows of groups 9 to D (R118). -/
def opcodeRows9toD : List OpcodeRow :=
  [⟨.skipIfRegNotEqual, 0x9000, 0xF000, []⟩, ⟨.setIndex, 0xA000, 0xF000, []⟩, ⟨.jumpOffset, 0xB000, 0xF000, []⟩,
   ⟨.setRand, 0xC000, 0xF000, []⟩, ⟨.draw, 0xD000, 0xF000, []⟩]

/-- The rows of groups E and F, the x nibble masked off (R116, R117). -/
def opcodeRowsEF : List OpcodeRow :=
  [⟨.skipIfKeyDown, 0xE09E, 0xF0FF, []⟩, ⟨.skipIfKeyUp, 0xE0A1, 0xF0FF, []⟩, ⟨.getDelay, 0xF007, 0xF0FF, []⟩,
   ⟨.waitKey, 0xF00A, 0xF0FF, []⟩, ⟨.setDelay, 0xF015, 0xF0FF, []⟩, ⟨.setSound, 0xF018, 0xF0FF, []⟩,
   ⟨.addIndex, 0xF01E, 0xF0FF, []⟩, ⟨.fontAddr, 0xF029, 0xF0FF, []⟩, ⟨.bcd, 0xF033, 0xF0FF, []⟩,
   ⟨.storeRegs, 0xF055, 0xF0FF, []⟩, ⟨.loadRegs, 0xF065, 0xF0FF, []⟩]

/-- The opcode table, in its own order (`opcode_table.json`). -/
def opcodeTable : List OpcodeRow := opcodeRows0to7 ++ opcodeRows8 ++ opcodeRows9toD ++ opcodeRowsEF

/-- The tags of the rows that match a word. -/
def tableTags (w : Word) : List Tag := (opcodeTable.filter (·.fits w)).map (·.tag)

/-! ## The encoder -/

/-- A word of the shape `Lnnn`. -/
def wordNNN (lead : Nibble) (nnn : Addr12) : Word := lead ++ nnn
/-- A word of the shape `Lxnn`. -/
def wordXNN (lead x : Nibble) (nn : Byte) : Word := lead ++ x ++ nn
/-- A word of the shape `Lxyn`. -/
def wordXYN (lead x y n : Nibble) : Word := lead ++ x ++ y ++ n

/-- The word of an instruction, from the patterns of R121. -/
def encode : Instr → Word
  | .machineRoutine nnn => wordNNN 0x0 nnn
  | .clearScreen => 0x00E0
  | .ret => 0x00EE
  | .jump nnn => wordNNN 0x1 nnn
  | .call nnn => wordNNN 0x2 nnn
  | .skipIfEqual x nn => wordXNN 0x3 x nn
  | .skipIfNotEqual x nn => wordXNN 0x4 x nn
  | .skipIfRegEqual x y n => wordXYN 0x5 x y n
  | .setReg x nn => wordXNN 0x6 x nn
  | .addImmediate x nn => wordXNN 0x7 x nn
  | .setRegToReg x y => wordXYN 0x8 x y 0x0
  | .or x y => wordXYN 0x8 x y 0x1
  | .and x y => wordXYN 0x8 x y 0x2
  | .xor x y => wordXYN 0x8 x y 0x3
  | .addRegToReg x y => wordXYN 0x8 x y 0x4
  | .subRegFromReg x y => wordXYN 0x8 x y 0x5
  | .shiftRight x y => wordXYN 0x8 x y 0x6
  | .subReverse x y => wordXYN 0x8 x y 0x7
  | .shiftLeft x y => wordXYN 0x8 x y 0xE
  | .skipIfRegNotEqual x y n => wordXYN 0x9 x y n
  | .setIndex nnn => wordNNN 0xA nnn
  | .jumpOffset nnn => wordNNN 0xB nnn
  | .setRand x nn => wordXNN 0xC x nn
  | .draw x y n => wordXYN 0xD x y n
  | .skipIfKeyDown x => wordXNN 0xE x 0x9E
  | .skipIfKeyUp x => wordXNN 0xE x 0xA1
  | .getDelay x => wordXNN 0xF x 0x07
  | .waitKey x => wordXNN 0xF x 0x0A
  | .setDelay x => wordXNN 0xF x 0x15
  | .setSound x => wordXNN 0xF x 0x18
  | .addIndex x => wordXNN 0xF x 0x1E
  | .fontAddr x => wordXNN 0xF x 0x29
  | .bcd x => wordXNN 0xF x 0x33
  | .storeRegs x => wordXNN 0xF x 0x55
  | .loadRegs x => wordXNN 0xF x 0x65

/-! ## The host's table words -/

/-- The word of `nbits` table bits: every bit above them is 0. -/
def tableWord (nbits w : Nat) : Word := BitVec.ofNat 16 (w % 2 ^ nbits)

/-- What the decoder reads from a word given by its table number: its two bytes, laid out as memory holds them (R83). -/
def decodeTableWord (nbits w : Nat) : Option Instr :=
  match decodeBytes [(bytesOfWord (tableWord nbits w)).1, (bytesOfWord (tableWord nbits w)).2] with
  | .ok (i, _) => some i
  | .error _ => none

end Sys2Proof
end

