-- ==== Sys2Proof/Config.lean ====
section
/-! DEFINITION. The named parameters of an instance (R13 to R18) and the free inputs of a step (R19). -/

namespace Sys2Proof

/-- P_ARITH_VF (R13): whether 8xy4, 8xy5 and 8xy7 write their flag into VF. -/
inductive ArithVf where
  | canonical
  | reference
  deriving DecidableEq, Repr

/-- P_SHIFT_SRC (R14): the register that 8xy6 and 8xyE shift. -/
inductive ShiftSrc where
  | vx
  | vy
  deriving DecidableEq, Repr

/-- P_DRAW_EDGE (R15): whether Draw wraps or drops a pixel beyond the display. -/
inductive DrawEdge where
  | wrap
  | clip
  deriving DecidableEq, Repr

/-- P_JUMP_OFFSET_REG (R17): the register Bnnn adds. -/
inductive JumpOffsetReg where
  | v0
  | vx
  deriving DecidableEq, Repr

/-- FONT (R18): 16 glyphs of 5 bytes, glyph g from entry 5g. -/
abbrev Font := Vector Byte 80

/-- The configuration of one instance, fixed for its lifetime (R51). -/
structure Config where
  arithVf       : ArithVf
  shiftSrc      : ShiftSrc
  drawEdge      : DrawEdge
  /-- P_LS_INC_I (R16): whether Fx55 and Fx65 advance I by x + 1. -/
  lsIncI        : Bool
  jumpOffsetReg : JumpOffsetReg
  font          : Font
  deriving DecidableEq, Repr

/-- KEYS of the k-th step the host issues beyond its schedule: a free value, nothing constrains it (R19 b, U6; log 3). -/
opaque Config.freeKeys : Nat → BitVec 16

/-- RAND8 of the k-th step the host issues beyond its schedule: a free value, nothing constrains it (R19 a, U5; log 3). -/
opaque Config.freeRand8 : Nat → Byte

end Sys2Proof
end

