-- ==== Sys2Proof/Machine/Defaults.lean ====
section
/-! DEFINITION. The fixed sizes of the block (R7 to R12), the default FONT table (R402) and the default parameters (R13 to R18). -/

namespace Sys2Proof.Machine

/-- MEM_SIZE (R7). -/
def memSize : Nat := 4096

/-- FONT_BASE (R11). -/
def fontBase : Nat := 0x050

/-- ROM_BASE, also the reset PC (R12). -/
def romBase : Nat := 0x200

/-- MAX_ROM (R12). -/
def maxRom : Nat := 3584

/-- Glyphs 0 to 3 of the default table (R402). -/
def fontGlyphs0to3 : Vector Byte 20 :=
  #v[0xF0, 0x90, 0x90, 0x90, 0xF0,  0x20, 0x60, 0x20, 0x20, 0x70,
     0xF0, 0x10, 0xF0, 0x80, 0xF0,  0xF0, 0x10, 0xF0, 0x10, 0xF0]

/-- Glyphs 4 to 7 of the default table (R402). -/
def fontGlyphs4to7 : Vector Byte 20 :=
  #v[0x90, 0x90, 0xF0, 0x10, 0x10,  0xF0, 0x80, 0xF0, 0x10, 0xF0,
     0xF0, 0x80, 0xF0, 0x90, 0xF0,  0xF0, 0x10, 0x20, 0x40, 0x40]

/-- Glyphs 8 to B of the default table (R402). -/
def fontGlyphs8toB : Vector Byte 20 :=
  #v[0xF0, 0x90, 0xF0, 0x90, 0xF0,  0xF0, 0x90, 0xF0, 0x10, 0xF0,
     0xF0, 0x90, 0xF0, 0x90, 0x90,  0xE0, 0x90, 0xE0, 0x90, 0xE0]

/-- Glyphs C to F of the default table (R402). -/
def fontGlyphsCtoF : Vector Byte 20 :=
  #v[0xF0, 0x80, 0x80, 0x80, 0xF0,  0xE0, 0x90, 0x90, 0x90, 0xE0,
     0xF0, 0x80, 0xF0, 0x80, 0xF0,  0xF0, 0x80, 0xF0, 0x80, 0x80]

/-- The standard hexadecimal font table of R402, which the spec takes from general knowledge (G14; log 16). -/
def defaultFont : Font := fontGlyphs0to3 ++ fontGlyphs4to7 ++ fontGlyphs8toB ++ fontGlyphsCtoF

/-- The default value of every parameter (R13 to R18). -/
def defaultConfig : Config where
  arithVf := .canonical
  shiftSrc := .vx
  drawEdge := .wrap
  lsIncI := false
  jumpOffsetReg := .v0
  font := defaultFont

end Sys2Proof.Machine
end

