-- ==== Sys2Proof/Machine/State.lean ====
section
/-! DEFINITION. The state of the block (`10_state.md`, `20_memory.md`), the host's side of it, and the state after reset. -/

namespace Sys2Proof.Machine

/-- The fault causes of R361. Code 0, no cause, is the empty fault record. -/
inductive FaultCause where
  /-- Raised by the fetch: PC + 1 > 0xFFF (R150). -/
  | fetchOutOfRange
  /-- Raised by Call at SP = 16 (R182). -/
  | stackOverflow
  /-- Raised by Return at SP = 0 (R180). -/
  | stackUnderflow
  /-- Raised by Draw and LoadRegs: last address > 0xFFF (R292, R265). -/
  | memReadOutOfRange
  /-- Raised by Bcd and StoreRegs: last address > 0xFFF (R263, R264). -/
  | memWriteOutOfRange
  /-- Raised by SkipIfKeyDown and SkipIfKeyUp: V[x] > 15 (R324, R325). -/
  | keyOutOfRange
  deriving DecidableEq, Repr

/-- The fault record (R50). -/
structure FaultRecord where
  cause : FaultCause
  /-- The address the faulting instruction was fetched from, or the PC at which the fetch failed. -/
  pc    : Word
  /-- The faulting word, or 0x0000 where the fetch itself failed. -/
  word  : Word
  /-- The offending address, the SP value, or V[x] (R50, R361). -/
  info  : BitVec 17
  deriving DecidableEq, Repr

/-- The run state (R49). -/
inductive RunState where
  | running
  /-- WaitKey is pending: a key event writes the key number into V[x]. -/
  | awaitingKey (x : Nibble)
  | faulted
  deriving DecidableEq, Repr

/-- The host's transactions (R27). -/
inductive Request where
  | reset
  | loadRom (bytes : List Byte)
  | step (keys : BitVec 16) (rand8 : Byte)
  | tickTimers
  | deliverKeyEvent (k : Nibble)
  deriving DecidableEq, Repr

/-- The model's own fields: the inputs of the step under way and what the host will ask for (log 2, 3, 4). -/
structure HostSide where
  /-- KEYS as sampled by the step under way; bit k is "key k is down" (R28). -/
  keys     : BitVec 16
  /-- RAND8 as sampled by the step under way (R28). -/
  rand8    : Byte
  /-- How many pairs of free inputs have been drawn (log 3). -/
  draws    : Nat
  /-- The transactions the host has scheduled, the next one first (R407; log 4). -/
  requests : List Request
  deriving DecidableEq, Repr

/-- The display buffer: 32 rows of 64 pixels, true means lit (R48). -/
abbrev Display := Vector (Vector Bool 64) 32

/-- The whole state of one instance (`10_state.md` section 9), its configuration (R51; log 1) and the host's side. -/
structure State where
  /-- V0..VF (R40); VF is also the flag register (R41). -/
  v        : Vector Byte 16
  /-- The program counter (R42, R43). -/
  pc       : Word
  /-- The index register (R44). -/
  i        : Word
  /-- The 16 slots of the call stack (R45). -/
  stack    : Vector Word 16
  /-- The stack pointer: the number of occupied slots, 0..16 (R45; log 9). -/
  sp       : Fin 17
  /-- The delay timer (R47). -/
  dt       : Byte
  /-- The sound timer (R47). -/
  st       : Byte
  /-- The display buffer (R48). -/
  disp     : Display
  /-- The run state (R49). -/
  runstate : RunState
  /-- The fault record, none where the block is not faulted (R50). -/
  fault    : Option FaultRecord
  /-- The bytes of memory that differ from the reset content, in canonical form (R80, R88). -/
  mem      : List Host.Cell
  /-- The parameters R13 to R18 of this instance; no transaction changes them (R51). -/
  config   : Config
  /-- The model's own fields, the host's side. -/
  host     : HostSide
  deriving DecidableEq, Repr

/-- The reasons a step of the model stops the machine: there is none. Every fault of the spec is a next state in
FAULTED (R152, R360 to R365; log 7), so a transaction always has a next state, and that is safe. -/
inductive Fault where
  deriving DecidableEq, Repr

/-- The reasons the model refuses an instruction. -/
inductive Refusal where
  /-- Raised by an arm of `exec` for an instruction without a meaning; safe. No arm is left so. -/
  | notModelled (mnemonic : String)
  deriving DecidableEq, Repr

/-- The state after `reset()`: the values of R400 and R88, memory with nothing listed, the default parameters, and
nothing scheduled by the host (log 2, 3, 4 for the model's own fields). -/
def State.reset : State where
  v := Vector.replicate 16 0
  pc := 0x200
  i := 0
  stack := Vector.replicate 16 0
  sp := 0
  dt := 0
  st := 0
  disp := Vector.replicate 32 (Vector.replicate 64 false)
  runstate := .running
  fault := none
  mem := []
  config := defaultConfig
  host := { keys := 0, rand8 := 0, draws := 0, requests := [] }

end Sys2Proof.Machine
end

