-- ==== Sys2Proof/Machine/Ops.lean ====
section
/-! DEFINITION. The named operations over memory, registers, stack, display and run state, and the entry into a fault. -/

namespace Sys2Proof.Machine

/-- The three outcomes of the block's steps. -/
abbrev Result := Host.Outcome State Fault Refusal

/-! ## Memory (R80 to R90) -/

/-- `InRange(a)` (R23, R90). -/
abbrev InRange (a : Nat) : Prop := a ≤ 0xFFF

/-- What an address that is not listed reads as: FONT at 0x050..0x09F and 0x00 elsewhere (R88, D28; log 12). -/
def Memory.unlisted (font : Font) (a : Nat) : Byte :=
  if h : fontBase ≤ a ∧ a - fontBase < 80 then font[a - fontBase]'h.2 else 0

/-- `MemRead(a, 1)` on the list of cells (R23, R81). -/
def Memory.read (font : Font) : List Host.Cell → Nat → Byte
  | [], a => Memory.unlisted font a
  | c :: m, a => if a = c.1 then c.2 else Memory.read font m a

/-- Put a cell at its place in the list, over an earlier cell of the same address. -/
def Memory.insert (a : Nat) (b : Byte) : List Host.Cell → List Host.Cell
  | [] => [(a, b)]
  | c :: m =>
    if a < c.1 then (a, b) :: c :: m
    else if a = c.1 then (a, b) :: m
    else c :: Memory.insert a b m

/-- Take an address off the list, so that it reads as unlisted again. -/
def Memory.erase (a : Nat) (m : List Host.Cell) : List Host.Cell := m.filter fun c => c.1 != a

/-- `MemWrite(a, 1, b)` on the list of cells (R23, R81); it keeps the canonical form. -/
def Memory.write (font : Font) (m : List Host.Cell) (a : Nat) (b : Byte) : List Host.Cell :=
  if b = Memory.unlisted font a then Memory.erase a m else Memory.insert a b m

/-- The canonical form: strictly rising addresses, each below MEM_SIZE, and no cell that reads as unlisted (R7). -/
abbrev Memory.wf (font : Font) (m : List Host.Cell) : Prop :=
  m.Pairwise (fun c d => c.1 < d.1) ∧ ∀ c ∈ m, c.1 < memSize ∧ c.2 ≠ Memory.unlisted font c.1

/-- The bytes at a, a+1, .., n of them, in ascending order (R92). -/
def Memory.readBlock (font : Font) (m : List Host.Cell) (a : Nat) : Nat → List Byte
  | 0 => []
  | n + 1 => Memory.read font m a :: Memory.readBlock font m (a + 1) n

/-- Write the bytes to a, a+1, .. in ascending order (R92). -/
def Memory.writeBlock (font : Font) (m : List Host.Cell) (a : Nat) : List Byte → List Host.Cell
  | [] => m
  | b :: bs => Memory.writeBlock font (Memory.write font m a b) (a + 1) bs

/-- The byte at an address (R81). -/
def State.readByte (s : State) (a : Nat) : Byte := Memory.read s.config.font s.mem a

/-- The bytes at a, a+1, .., n of them. -/
def State.readBytes (s : State) (a n : Nat) : List Byte := Memory.readBlock s.config.font s.mem a n

/-- Write one byte (R81). -/
def State.writeByte (s : State) (a : Nat) (b : Byte) : State := { s with mem := Memory.write s.config.font s.mem a b }

/-- Write bytes at a, a+1, .. (R92). -/
def State.writeBytes (s : State) (a : Nat) (bs : List Byte) : State :=
  { s with mem := Memory.writeBlock s.config.font s.mem a bs }

/-! ## Registers (R40 to R47) -/

/-- The register VF (R41). -/
def vf : Nibble := 0xF

/-- `V[x]` (R22, R40). -/
def State.getV (s : State) (x : Nibble) : Byte := s.v[x.toNat]'x.isLt

/-- `V[x] <- b` (R22, R40). -/
def State.setV (s : State) (x : Nibble) (b : Byte) : State := { s with v := s.v.set x.toNat b x.isLt }

/-- `PC <- a` (R22). -/
def State.setPc (s : State) (a : Word) : State := { s with pc := a }

/-- `PC <- PC + 2`: the advance of the fetch (R110, R150) and the taken skip (R188). -/
def State.advancePc (s : State) : State := { s with pc := s.pc + 2 }

/-- `I <- a` (R44). -/
def State.setI (s : State) (a : Word) : State := { s with i := a }

/-- `DT <- b` (R47). -/
def State.setDt (s : State) (b : Byte) : State := { s with dt := b }

/-- `ST <- b` (R47). -/
def State.setSt (s : State) (b : Byte) : State := { s with st := b }

/-- `runstate <- r` (R49). -/
def State.setRunstate (s : State) (r : RunState) : State := { s with runstate := r }

/-- Write V0, V1, .. from the first bytes of a list, ascending (R265). -/
def State.loadV (s : State) (n : Nat) : List Byte → State
  | [] => s
  | b :: bs => (s.setV (BitVec.ofNat 4 n) b).loadV (n + 1) bs

/-- V0, .., Vx in ascending order (R264). -/
def State.regsUpTo (s : State) (x : Nibble) : List Byte := s.v.toList.take (x.toNat + 1)

/-! ## Call stack (R45, R46) -/

/-- Call's push: the slot at SP takes the return address, then SP counts it (R45, R182). -/
def State.push (s : State) (a : Word) (h : s.sp.val < 16) : State :=
  { s with stack := s.stack.set s.sp.val a h, sp := ⟨s.sp.val + 1, Nat.succ_lt_succ h⟩ }

/-- Return's pop: SP counts one slot less, and the slot it leaves is the new PC; the slot keeps its value (R45, R180).
Its caller has checked SP ≠ 0. -/
def State.popPc (s : State) : State :=
  { s with
    pc := s.stack[s.sp.val - 1]'(by have := s.sp.isLt; omega)
    sp := ⟨s.sp.val - 1, by have := s.sp.isLt; omega⟩ }

/-! ## Display ports (R290) -/

/-- One pixel, `disp[row][col]`. -/
def Display.pixel (d : Display) (row : Fin 32) (col : Fin 64) : Bool := (d.get row).get col

/-- The write port's toggle of one bit (R290). -/
def Display.toggle (d : Display) (row : Fin 32) (col : Fin 64) : Display :=
  d.set row.val ((d.get row).set col.val (!Display.pixel d row col) col.isLt) row.isLt

/-- The write port's clear of all 2048 bits (R290, R291). -/
def Display.clear : Display := Vector.replicate 32 (Vector.replicate 64 false)

/-- Set the display buffer. -/
def State.setDisp (s : State) (d : Display) : State := { s with disp := d }

/-! ## Faults (R24, R360 to R366) -/

/-- The 4-bit code of a cause (R361). -/
def FaultCause.code : FaultCause → BitVec 4
  | .fetchOutOfRange => 1
  | .stackOverflow => 2
  | .stackUnderflow => 3
  | .memReadOutOfRange => 4
  | .memWriteOutOfRange => 5
  | .keyOutOfRange => 6

/-- Fault entry: the record is filled and the run state becomes FAULTED; nothing else changes (R362). There is no
return from it (R366): only the reset transaction leaves FAULTED (R365). -/
def State.enterFault (s : State) (cause : FaultCause) (pc word : Word) (info : Nat) : State :=
  { s with fault := some ⟨cause, pc, word, BitVec.ofNat 17 info⟩, runstate := .faulted }

/-- `raise Fault(cause, info)` in the handler of an instruction (R24, R362). The handler runs with PC = a + 2 (R150),
so the fetch address is PC - 2, and the fetched word is the instruction's own (log 8). -/
def State.raise (s : State) (instr : Instr) (cause : FaultCause) (info : Nat) : State :=
  s.enterFault cause (s.pc - 2) (encode instr) info

/-! ## Inputs (R25, R28) -/

/-- Sample KEYS and RAND8 for the step under way (R28; log 2). -/
def State.sampleInputs (s : State) (keys : BitVec 16) (rand8 : Byte) : State :=
  { s with host := { s.host with keys := keys, rand8 := rand8 } }

/-- `KeyDown(k)` for a key number k (R25, R323). -/
def State.keyDown (s : State) (k : Nat) : Bool := s.host.keys.getLsbD k

/-- `Rand8()` (R25). -/
def State.rand8 (s : State) : Byte := s.host.rand8

end Sys2Proof.Machine
end

