-- ==== Sys2Proof/Machine/Operands.lean ====
section
/-! DEFINITION. The operand forms: the index-addressed block with its range check (R90), the register selected by a parameter (R14, R17), and the values computed from an operand. -/

namespace Sys2Proof.Machine

/-- The effective address of the k-th byte of an access through I: `zext(I) + k`, no wrap (R90). -/
def State.indexAddr (s : State) (k : Nat) : Nat := s.i.toNat + k

/-- Whether all n addresses of an access through I are in range; an access of no byte has none to check (R90, R292). -/
abbrev State.BlockInRange (s : State) (n : Nat) : Prop := n = 0 ∨ InRange (s.i.toNat + n - 1)

/-- The lowest out-of-range address of an access through I that is not in range: `max(zext(I), 0x1000)` (R90, R361). -/
def State.lowestOutOfRange (s : State) : Nat := max s.i.toNat 0x1000

/-- An access of n bytes through I: checked before anything is read or written, and a fault of the given cause where
an address is out of range (R90, R154). -/
def State.throughIndex (s : State) (instr : Instr) (cause : FaultCause) (n : Nat) (effect : State) : Result :=
  if s.BlockInRange n then .next effect else .next (s.raise instr cause s.lowestOutOfRange)

/-- The shift source: V[x] or V[y] by P_SHIFT_SRC (R14, R210). -/
def shiftSource (src : ShiftSrc) (a b : Byte) : Byte :=
  match src with
  | .vx => a
  | .vy => b

/-- The offset of Bnnn: V0, or V[nnn[11:8]] by P_JUMP_OFFSET_REG (R17, R187). -/
def State.jumpOffset (s : State) (nnn : Addr12) : Byte :=
  match s.config.jumpOffsetReg with
  | .v0 => s.getV 0
  | .vx => s.getV (nnn.extractLsb' 8 4)

/-- The address of the glyph of a value's low nibble: `0x050 + (v & 0xF) * 5` (R262). -/
def glyphAddr (b : Byte) : Word := 0x050 + (b &&& 0xF).zeroExtend 16 * 5

/-- Hundreds, tens and units (R263). -/
def bcdDigits (b : Byte) : List Byte := [b / 100, b / 10 % 10, b % 10]

/-- I after a block store or load of V0..Vx: advanced by x + 1 modulo 2^16 where P_LS_INC_I is TRUE (R16, R264, R265). -/
def State.indexAfterBlock (s : State) (x : Nibble) : Word :=
  if s.config.lsIncI then s.i + x.zeroExtend 16 + 1 else s.i

end Sys2Proof.Machine
end

