-- ==== Sys2Proof/Machine/Flags.lean ====
section
/-! DEFINITION. The ALU with its flag logic (R210) and the order in which result and flag are written (R211). -/

namespace Sys2Proof.Machine

/-- The ALU's operations: the nine of group 8 and ADDI (R210). -/
inductive AluOp where
  | mov | or | and | xor | add | sub | shr | subn | shl | addi
  deriving DecidableEq, Repr

/-- The ALU's outputs (R210). -/
structure AluOut where
  /-- The result r. -/
  r  : Byte
  /-- The flag f, none where R210 writes "-". -/
  f  : Option Bool
  /-- Whether f is written to VF. -/
  fw : Bool
  deriving DecidableEq, Repr

/-- Whether ADD, SUB and SUBN write their flag: P_ARITH_VF = CANONICAL (R13, R210). -/
def arithFlagWritten (c : Config) : Bool := c.arithVf == .canonical

/-- Carry of an addition: a + b > 0xFF (R210). -/
def carry (a b : Byte) : Bool := decide (a.toNat + b.toNat > 0xFF)

/-- No borrow of a subtraction: minuend ≥ subtrahend (R210). -/
def noBorrow (a b : Byte) : Bool := decide (a.toNat ≥ b.toNat)

/-- `alu(op, a, b) -> (r, f, fw)` (R210). -/
def alu (c : Config) (op : AluOp) (a b : Byte) : AluOut :=
  match op with
  | .mov => ⟨b, none, false⟩
  | .or => ⟨a ||| b, none, false⟩
  | .and => ⟨a &&& b, none, false⟩
  | .xor => ⟨a ^^^ b, none, false⟩
  | .add => ⟨a + b, some (carry a b), arithFlagWritten c⟩
  | .sub => ⟨a - b, some (noBorrow a b), arithFlagWritten c⟩
  | .shr => ⟨shiftSource c.shiftSrc a b >>> 1, some ((shiftSource c.shiftSrc a b).getLsbD 0), true⟩
  | .subn => ⟨b - a, some (noBorrow b a), arithFlagWritten c⟩
  | .shl => ⟨shiftSource c.shiftSrc a b <<< 1, some ((shiftSource c.shiftSrc a b).getLsbD 7), true⟩
  | .addi => ⟨a + b, none, false⟩

/-- A flag as VF holds it: 1 or 0. -/
def flagByte (f : Bool) : Byte := if f then 1 else 0

/-- R211: the result goes to V[x] first; then, where fw = 1, the flag goes to VF, over the result if x = 0xF. -/
def State.writeAlu (s : State) (x : Nibble) (o : AluOut) : State :=
  match o.fw, o.f with
  | true, some f => (s.setV x o.r).setV vf (flagByte f)
  | _, _ => s.setV x o.r

/-- A group-8 operation on V[x] and V[y], both read before either write (R211). -/
def State.aluRegs (s : State) (op : AluOp) (x y : Nibble) : State :=
  s.writeAlu x (alu s.config op (s.getV x) (s.getV y))

end Sys2Proof.Machine
end

