-- ==== Sys2Proof/Machine/AluOps.lean ====
section
/-! DEFINITION. The register operations: immediates, group 8 and SetRand (`42_alu.md`). None of them faults. -/

namespace Sys2Proof.Machine

/-- SetReg `LD Vx, nn` (R212). -/
def execSetReg (x : Nibble) (nn : Byte) (s : State) : Result := .next (s.setV x nn)

/-- AddImmediate `ADD Vx, nn`: no flag under either P_ARITH_VF (R213, C6). -/
def execAddImmediate (x : Nibble) (nn : Byte) (s : State) : Result :=
  .next (s.writeAlu x (alu s.config .addi (s.getV x) nn))

/-- SetRegToReg `LD Vx, Vy` (R214). -/
def execSetRegToReg (x y : Nibble) (s : State) : Result := .next (s.aluRegs .mov x y)

/-- Or `OR Vx, Vy` (R215). -/
def execOr (x y : Nibble) (s : State) : Result := .next (s.aluRegs .or x y)

/-- And `AND Vx, Vy` (R216). -/
def execAnd (x y : Nibble) (s : State) : Result := .next (s.aluRegs .and x y)

/-- Xor `XOR Vx, Vy` (R217). -/
def execXor (x y : Nibble) (s : State) : Result := .next (s.aluRegs .xor x y)

/-- AddRegToReg `ADD Vx, Vy` (R218). -/
def execAddRegToReg (x y : Nibble) (s : State) : Result := .next (s.aluRegs .add x y)

/-- SubRegFromReg `SUB Vx, Vy` (R219). -/
def execSubRegFromReg (x y : Nibble) (s : State) : Result := .next (s.aluRegs .sub x y)

/-- ShiftRight `SHR Vx, Vy` (R220). -/
def execShiftRight (x y : Nibble) (s : State) : Result := .next (s.aluRegs .shr x y)

/-- SubReverse `SUBN Vx, Vy` (R221). -/
def execSubReverse (x y : Nibble) (s : State) : Result := .next (s.aluRegs .subn x y)

/-- ShiftLeft `SHL Vx, Vy` (R222). -/
def execShiftLeft (x y : Nibble) (s : State) : Result := .next (s.aluRegs .shl x y)

/-- SetRand `RND Vx, nn`: the step's RAND8 draw and the mask nn (R223). -/
def execSetRand (x : Nibble) (nn : Byte) (s : State) : Result := .next (s.setV x (s.rand8 &&& nn))

end Sys2Proof.Machine
end

