-- ==== Sys2Proof/Machine/ControlFlow.lean ====
section
/-! DEFINITION. Control transfer: Return, Jump, Call, the register skips and JumpOffset (`41_control_flow.md`). Each runs with PC = a + 2. -/

namespace Sys2Proof.Machine

/-- The skip mechanism: a true condition adds 2 to the already advanced PC (R188). -/
def State.skipIf (s : State) (cond : Bool) : State := if cond then s.advancePc else s

/-- Return `RET` (R180). -/
def execRet (s : State) : Result :=
  if s.sp.val = 0 then .next (s.raise .ret .stackUnderflow 0) else .next s.popPc

/-- Jump `JP nnn` (R181). -/
def execJump (nnn : Addr12) (s : State) : Result := .next (s.setPc (nnn.zeroExtend 16))

/-- Call `CALL nnn` (R182). -/
def execCall (nnn : Addr12) (s : State) : Result :=
  if h : s.sp.val < 16 then .next ((s.push s.pc h).setPc (nnn.zeroExtend 16))
  else .next (s.raise (.call nnn) .stackOverflow 16)

/-- SkipIfEqual `SE Vx, nn` (R183). -/
def execSkipIfEqual (x : Nibble) (nn : Byte) (s : State) : Result := .next (s.skipIf (s.getV x == nn))

/-- SkipIfNotEqual `SNE Vx, nn` (R184). -/
def execSkipIfNotEqual (x : Nibble) (nn : Byte) (s : State) : Result := .next (s.skipIf (s.getV x != nn))

/-- SkipIfRegEqual `SE Vx, Vy`; n is ignored (R185). -/
def execSkipIfRegEqual (x y : Nibble) (s : State) : Result := .next (s.skipIf (s.getV x == s.getV y))

/-- SkipIfRegNotEqual `SNE Vx, Vy`; n is ignored (R186). -/
def execSkipIfRegNotEqual (x y : Nibble) (s : State) : Result := .next (s.skipIf (s.getV x != s.getV y))

/-- JumpOffset `JP V0, nnn`: the sum is neither wrapped nor masked (R187). -/
def execJumpOffset (nnn : Addr12) (s : State) : Result :=
  .next (s.setPc (nnn.zeroExtend 16 + (s.jumpOffset nnn).zeroExtend 16))

end Sys2Proof.Machine
end

