-- ==== Sys2Proof/Machine/DisplayOps.lean ====
section
/-! DEFINITION. ClearScreen and Draw with the sprite's pixel rules (`44_display.md`). -/

namespace Sys2Proof.Machine

/-- The pixel that column c of sprite row r falls on, from the start (cx, cy); none where CLIP drops it (R292, R293 d). -/
def spriteTarget (edge : DrawEdge) (cx cy r c : Nat) : Option (Fin 32 × Fin 64) :=
  match edge with
  | .wrap => some (Fin.ofNat 32 (cy + r), Fin.ofNat 64 (cx + c))
  | .clip => if h : cy + r < 32 ∧ cx + c < 64 then some (⟨cy + r, h.1⟩, ⟨cx + c, h.2⟩) else none

/-- What Draw carries from pixel to pixel: the buffer and whether a lit pixel was hit (R292). -/
structure Canvas where
  disp : Display
  hit  : Bool
  deriving DecidableEq, Repr

/-- Draw one sprite pixel: a lit bit toggles its target, and hits where the old value was lit (R290, R292). -/
def Canvas.drawPixel (p : Canvas) (edge : DrawEdge) (cx cy r c : Nat) (bit : Bool) : Canvas :=
  match bit, spriteTarget edge cx cy r c with
  | true, some (row, col) => ⟨p.disp.toggle row col, p.hit || p.disp.pixel row col⟩
  | _, _ => p

/-- Draw one sprite row; the most significant bit is the leftmost pixel (R292). -/
def Canvas.drawRow (p : Canvas) (edge : DrawEdge) (cx cy r : Nat) (row : Byte) : Canvas :=
  (List.range 8).foldl (fun p c => p.drawPixel edge cx cy r c (row.getLsbD (7 - c))) p

/-- Draw the sprite rows r, r+1, .. (R292). -/
def Canvas.drawRows (p : Canvas) (edge : DrawEdge) (cx cy r : Nat) : List Byte → Canvas
  | [] => p
  | b :: bs => (p.drawRow edge cx cy r b).drawRows edge cx cy (r + 1) bs

/-- The start column, V[x] mod 64 (R292). -/
def State.startCol (s : State) (x : Nibble) : Nat := (s.getV x).toNat % 64

/-- The start row, V[y] mod 32 (R292). -/
def State.startRow (s : State) (y : Nibble) : Nat := (s.getV y).toNat % 32

/-- The canvas after the sprite of n rows at I is drawn, the coordinates read before VF is written (R292, R293 a). -/
def State.drawSprite (s : State) (x y n : Nibble) : Canvas :=
  Canvas.drawRows ⟨s.disp, false⟩ s.config.drawEdge (s.startCol x) (s.startRow y) 0
    (s.readBytes (s.indexAddr 0) n.toNat)

/-- ClearScreen `CLS` (R291). -/
def execClearScreen (s : State) : Result := .next (s.setDisp Display.clear)

/-- Draw `DRW Vx, Vy, n`; VF ends as the collision flag (R292, R293). -/
def execDraw (x y n : Nibble) (s : State) : Result :=
  s.throughIndex (.draw x y n) .memReadOutOfRange n.toNat
    ((s.setDisp (s.drawSprite x y n).disp).setV vf (flagByte (s.drawSprite x y n).hit))

end Sys2Proof.Machine
end

