-- ==== Sys2Proof/Machine/MemoryIndex.lean ====
section
/-! DEFINITION. The index register and the memory instructions (`43_memory_index.md`). -/

namespace Sys2Proof.Machine

/-- SetIndex `LD I, nnn` (R260). -/
def execSetIndex (nnn : Addr12) (s : State) : Result := .next (s.setI (nnn.zeroExtend 16))

/-- AddIndex `ADD I, Vx`: modulo 2^16, no flag, no fault (R261). -/
def execAddIndex (x : Nibble) (s : State) : Result := .next (s.setI (s.i + (s.getV x).zeroExtend 16))

/-- FontAddr `LD F, Vx` (R262). -/
def execFontAddr (x : Nibble) (s : State) : Result := .next (s.setI (glyphAddr (s.getV x)))

/-- Bcd `LD B, Vx` (R263). -/
def execBcd (x : Nibble) (s : State) : Result :=
  s.throughIndex (.bcd x) .memWriteOutOfRange 3 (s.writeBytes (s.indexAddr 0) (bcdDigits (s.getV x)))

/-- StoreRegs `LD [I], Vx` (R264). -/
def execStoreRegs (x : Nibble) (s : State) : Result :=
  s.throughIndex (.storeRegs x) .memWriteOutOfRange (x.toNat + 1)
    ((s.writeBytes (s.indexAddr 0) (s.regsUpTo x)).setI (s.indexAfterBlock x))

/-- LoadRegs `LD Vx, [I]` (R265). -/
def execLoadRegs (x : Nibble) (s : State) : Result :=
  s.throughIndex (.loadRegs x) .memReadOutOfRange (x.toNat + 1)
    ((s.loadV 0 (s.readBytes (s.indexAddr 0) (x.toNat + 1))).setI (s.indexAfterBlock x))

end Sys2Proof.Machine
end

