-- ==== Sys2Proof/Machine/NoOps.lean ====
section
/-! DEFINITION. The no-op tags: MachineRoutine and Undefined (R157, R158). -/

namespace Sys2Proof.Machine

/-- MachineRoutine `SYS nnn`: nothing beyond the fetch's PC advance; nnn is not used (R158). -/
def execMachineRoutine (_nnn : Addr12) (s : State) : Result := .next s

/-- Undefined: nothing beyond the fetch's PC advance, whatever the word (R157). -/
def execUndefined (s : State) : Result := .next s

end Sys2Proof.Machine
end

