-- ==== Sys2Proof/Machine/TimersInput.lean ====
section
/-! DEFINITION. The key skips, the timer instructions and WaitKey (`45_timers_input.md`). -/

namespace Sys2Proof.Machine

/-- SkipIfKeyDown `SKP Vx` (R324). -/
def execSkipIfKeyDown (x : Nibble) (s : State) : Result :=
  if (s.getV x).toNat > 15 then .next (s.raise (.skipIfKeyDown x) .keyOutOfRange (s.getV x).toNat)
  else .next (s.skipIf (s.keyDown (s.getV x).toNat))

/-- SkipIfKeyUp `SKNP Vx` (R325). -/
def execSkipIfKeyUp (x : Nibble) (s : State) : Result :=
  if (s.getV x).toNat > 15 then .next (s.raise (.skipIfKeyUp x) .keyOutOfRange (s.getV x).toNat)
  else .next (s.skipIf (!s.keyDown (s.getV x).toNat))

/-- GetDelay `LD Vx, DT` (R326). -/
def execGetDelay (x : Nibble) (s : State) : Result := .next (s.setV x s.dt)

/-- WaitKey `LD Vx, K`: the block waits for a key event; KEYS is not consulted (R327). -/
def execWaitKey (x : Nibble) (s : State) : Result := .next (s.setRunstate (.awaitingKey x))

/-- SetDelay `LD DT, Vx` (R328). -/
def execSetDelay (x : Nibble) (s : State) : Result := .next (s.setDt (s.getV x))

/-- SetSound `LD ST, Vx` (R329). -/
def execSetSound (x : Nibble) (s : State) : Result := .next (s.setSt (s.getV x))

end Sys2Proof.Machine
end

