-- ==== Sys2Proof/Machine/Dispatch.lean ====
section
/-! DEFINITION. The dispatch table: a total map from the instructions to their handlers, one handler each (R153). The Undefined handler is called by the cycle driver, since Undefined is no instruction. -/

namespace Sys2Proof.Machine

/-- The handler of an instruction, run on the state the fetch left, with PC = a + 2 (R150, R153). -/
def exec (i : Instr) (s : State) : Host.Outcome State Fault Refusal :=
  match i with
  | .machineRoutine nnn => Sys2Proof.Machine.execMachineRoutine nnn s
  | .clearScreen => Sys2Proof.Machine.execClearScreen s
  | .ret => Sys2Proof.Machine.execRet s
  | .jump nnn => Sys2Proof.Machine.execJump nnn s
  | .call nnn => Sys2Proof.Machine.execCall nnn s
  | .skipIfEqual x nn => Sys2Proof.Machine.execSkipIfEqual x nn s
  | .skipIfNotEqual x nn => Sys2Proof.Machine.execSkipIfNotEqual x nn s
  | .skipIfRegEqual x y _ => Sys2Proof.Machine.execSkipIfRegEqual x y s
  | .setReg x nn => Sys2Proof.Machine.execSetReg x nn s
  | .addImmediate x nn => Sys2Proof.Machine.execAddImmediate x nn s
  | .setRegToReg x y => Sys2Proof.Machine.execSetRegToReg x y s
  | .or x y => Sys2Proof.Machine.execOr x y s
  | .and x y => Sys2Proof.Machine.execAnd x y s
  | .xor x y => Sys2Proof.Machine.execXor x y s
  | .addRegToReg x y => Sys2Proof.Machine.execAddRegToReg x y s
  | .subRegFromReg x y => Sys2Proof.Machine.execSubRegFromReg x y s
  | .shiftRight x y => Sys2Proof.Machine.execShiftRight x y s
  | .subReverse x y => Sys2Proof.Machine.execSubReverse x y s
  | .shiftLeft x y => Sys2Proof.Machine.execShiftLeft x y s
  | .skipIfRegNotEqual x y _ => Sys2Proof.Machine.execSkipIfRegNotEqual x y s
  | .setIndex nnn => Sys2Proof.Machine.execSetIndex nnn s
  | .jumpOffset nnn => Sys2Proof.Machine.execJumpOffset nnn s
  | .setRand x nn => Sys2Proof.Machine.execSetRand x nn s
  | .draw x y n => Sys2Proof.Machine.execDraw x y n s
  | .skipIfKeyDown x => Sys2Proof.Machine.execSkipIfKeyDown x s
  | .skipIfKeyUp x => Sys2Proof.Machine.execSkipIfKeyUp x s
  | .getDelay x => Sys2Proof.Machine.execGetDelay x s
  | .waitKey x => Sys2Proof.Machine.execWaitKey x s
  | .setDelay x => Sys2Proof.Machine.execSetDelay x s
  | .setSound x => Sys2Proof.Machine.execSetSound x s
  | .addIndex x => Sys2Proof.Machine.execAddIndex x s
  | .fontAddr x => Sys2Proof.Machine.execFontAddr x s
  | .bcd x => Sys2Proof.Machine.execBcd x s
  | .storeRegs x => Sys2Proof.Machine.execStoreRegs x s
  | .loadRegs x => Sys2Proof.Machine.execLoadRegs x s

end Sys2Proof.Machine
end

