-- ==== Sys2Proof/Machine/HostPort.lean ====
section
/-! DEFINITION. The host's transactions other than `step` (R321, R330, R400, R403), the outputs it reads (R29), and its schedule (R407). -/

namespace Sys2Proof.Machine

/-- `reset()`: every state element of the block gets its reset value, in every run state (R400). The configuration is
fixed for the lifetime of the instance (R51), and the host's side is not the block's to reset (log 14). -/
def State.resetBlock (s : State) : State := { State.reset with config := s.config, host := s.host }

/-- `load_rom`'s reply (R27, R403). -/
inductive LoadReply where
  | ok
  | rejected
  deriving DecidableEq, Repr

/-- `load_rom(bytes)` returns REJECTED exactly where there are more than MAX_ROM bytes (R12, R403). -/
def loadRomReply (bytes : List Byte) : LoadReply := if bytes.length > maxRom then .rejected else .ok

/-- `load_rom(bytes)`: the bytes go to ROM_BASE upward, or nothing changes where the load is rejected (R403). -/
def State.loadRom (s : State) (bytes : List Byte) : State :=
  match loadRomReply bytes with
  | .ok => s.writeBytes romBase bytes
  | .rejected => s

/-- One tick of a timer: it stays at 0, with no wrap (R321). -/
def tickTimer (b : Byte) : Byte := if b = 0 then 0 else b - 1

/-- `tick_timers()`: the same in every run state (R321). -/
def State.tickTimers (s : State) : State := (s.setDt (tickTimer s.dt)).setSt (tickTimer s.st)

/-- `deliver_key_event(k)`: it completes a pending wait; otherwise the event is dropped (R330). -/
def State.deliverKeyEvent (s : State) (k : Nibble) : State :=
  match s.runstate with
  | .awaitingKey x => (s.setV x (k.zeroExtend 8)).setRunstate .running
  | .running => s
  | .faulted => s

/-- `sound_active` = (ST ≠ 0) (R29, R322). -/
def State.soundActive (s : State) : Bool := s.st != 0

/-- What the host reads between transactions (R29). -/
structure Outputs where
  disp        : Display
  soundActive : Bool
  runstate    : RunState
  fault       : Option FaultRecord
  deriving DecidableEq, Repr

/-- The outputs of a state (R29). -/
def State.outputs (s : State) : Outputs := ⟨s.disp, s.soundActive, s.runstate, s.fault⟩

/-- The transaction the host issues next: the first it has scheduled, or a step with free inputs (R19, R407; log 3, 4). -/
def State.nextRequest (s : State) : Request :=
  match s.host.requests with
  | [] => .step (Config.freeKeys s.host.draws) (Config.freeRand8 s.host.draws)
  | r :: _ => r

/-- The host's side once that transaction is issued. -/
def State.takeRequest (s : State) : State :=
  match s.host.requests with
  | [] => { s with host := { s.host with draws := s.host.draws + 1 } }
  | _ :: rest => { s with host := { s.host with requests := rest } }

end Sys2Proof.Machine
end

