-- ==== Sys2Proof/Machine/Cycle.lean ====
section
/-! DEFINITION. The cycle driver: fetch, decode, dispatch (R150 to R152), the step report (R155), and the host's transactions as one function (R27). -/

namespace Sys2Proof.Machine

/-- The fetch is in range where both its addresses are: PC + 1 ≤ 0xFFF (R90, R150). -/
abbrev State.FetchInRange (s : State) : Prop := InRange (s.pc.toNat + 1)

/-- The fetched word, `{MemRead(PC, 1), MemRead(PC + 1, 1)}`, high byte first (R83, R150). -/
def State.fetchWord (s : State) : Word := wordOfBytes (s.readByte s.pc.toNat) (s.readByte (s.pc.toNat + 1))

/-- The lowest out-of-range address of a fetch that is not in range (R150, R361). -/
def State.fetchFaultInfo (s : State) : Nat := if s.pc.toNat > 0xFFF then s.pc.toNat else s.pc.toNat + 1

/-- The handler of a fetched word: the instruction's, or the Undefined no-op (R153, R157). -/
def State.execWord (s : State) (w : Word) : Result :=
  match decode w with
  | some i => exec i s
  | none => execUndefined s

/-- Fetch, advance PC by 2, decode and execute, in run state RUNNING (R150). -/
def State.fetchExecute (s : State) : Result :=
  if s.FetchInRange then s.advancePc.execWord s.fetchWord
  else .next (s.enterFault .fetchOutOfRange s.pc 0 s.fetchFaultInfo)

/-- `step(KEYS, RAND8)` (R150 to R152): only RUNNING fetches; AWAITING_KEY and FAULTED change nothing, and their
steps ignore the inputs. -/
def State.stepCore (s : State) (keys : BitVec 16) (rand8 : Byte) : Result :=
  match s.runstate with
  | .running => (s.sampleInputs keys rand8).fetchExecute
  | .awaitingKey _ => .next s
  | .faulted => .next s

/-- The step report (R155): an output, never state. -/
inductive StepReport where
  | executed (addr word : Word) (record : InstrRecord)
  | blocked
  | faulted (record : Option FaultRecord)
  deriving DecidableEq, Repr

/-- The report that `step(KEYS, RAND8)` returns from a state (R150 to R152, R155). -/
def State.stepReport (s : State) (keys : BitVec 16) (rand8 : Byte) : Host.Outcome StepReport Fault Refusal :=
  match s.runstate with
  | .awaitingKey _ => .next .blocked
  | .faulted => .next (.faulted s.fault)
  | .running =>
    match s.stepCore keys rand8 with
    | .next t =>
      if t.runstate = .faulted then .next (.faulted t.fault)
      else .next (.executed s.pc s.fetchWord (decodeRecord s.fetchWord))
    | .fault r => .fault r
    | .refused r => .refused r

/-- One transaction of the host, atomic (R3, R27). -/
def State.transact (s : State) (r : Request) : Result :=
  match r with
  | .reset => .next s.resetBlock
  | .loadRom bytes => .next (s.loadRom bytes)
  | .step keys rand8 => s.stepCore keys rand8
  | .tickTimers => .next s.tickTimers
  | .deliverKeyEvent k => .next (s.deliverKeyEvent k)

/-- What a transaction returns to the host (R27). -/
inductive Reply where
  | nothing
  | load (reply : LoadReply)
  | report (report : StepReport)
  deriving DecidableEq, Repr

/-- The reply of a transaction issued in a state (R27, R155, R403). -/
def State.reply (s : State) (r : Request) : Host.Outcome Reply Fault Refusal :=
  match r with
  | .reset => .next .nothing
  | .loadRom bytes => .next (.load (loadRomReply bytes))
  | .step keys rand8 =>
    match s.stepReport keys rand8 with
    | .next p => .next (.report p)
    | .fault f => .fault f
    | .refused f => .refused f
  | .tickTimers => .next .nothing
  | .deliverKeyEvent _ => .next .nothing

/-- Store a word where the next fetch reads it, in a block that is RUNNING, with a step as the host's next request
(log 6). Nothing can be stored where the fetch would be out of range. -/
def State.placeWord (s : State) (w : Word) : State :=
  if s.FetchInRange then
    { s.writeBytes s.pc.toNat [(bytesOfWord w).1, (bytesOfWord w).2] with
      runstate := .running
      fault := none
      host := { s.host with requests := .step s.host.keys s.host.rand8 :: s.host.requests } }
  else s

end Sys2Proof.Machine
end

