-- ==== Sys2Proof/Machine/Step.lean ====
section
/-! DEFINITION. One step of the machine: the block serves the host's next transaction (R3, R27, R407). -/

namespace Sys2Proof.Machine

/-- Serve the host's next request. -/
def step (s : State) : Host.Outcome State Fault Refusal := s.takeRequest.transact s.nextRequest

/-- The state with a table word stored where the next step fetches it (log 6). -/
def State.withFetchWord (s : State) (nbits w : Nat) : State := s.placeWord (tableWord nbits w)

end Sys2Proof.Machine
end

