-- ==== Sys2Proof/Machine/Assembly.lean ====
section
/-! DEFINITION. The assembler text of an instruction and of a word (R124; log 18). Notation only: no rule of the machine reads it. -/

namespace Sys2Proof.Machine

/-- One hexadecimal digit. -/
def hexDigit (d : Nibble) : Char := if d.toNat < 10 then Char.ofNat (48 + d.toNat) else Char.ofNat (55 + d.toNat)

/-- A register name, `V` and the index in hex. -/
def vText (x : Nibble) : String := String.ofList ['V', hexDigit x]

/-- A byte as two hex digits. -/
def byteText (b : Byte) : String := "0x" ++ String.ofList [hexDigit (b.extractLsb' 4 4), hexDigit (b.extractLsb' 0 4)]

/-- A 12-bit address as three hex digits. -/
def addrText (a : Addr12) : String :=
  "0x" ++ String.ofList [hexDigit (a.extractLsb' 8 4), hexDigit (a.extractLsb' 4 4), hexDigit (a.extractLsb' 0 4)]

/-- `OP Vx, Vy`. -/
def textXY (op : String) (x y : Nibble) : String := op ++ " " ++ vText x ++ ", " ++ vText y

/-- `OP Vx, nn`. -/
def textXNN (op : String) (x : Nibble) (nn : Byte) : String := op ++ " " ++ vText x ++ ", " ++ byteText nn

/-- The text of an instruction (R124). The ignored nibble of groups 5 and 9 is not shown. -/
def assemblyText : Instr → String
  | .machineRoutine nnn => "SYS " ++ addrText nnn
  | .clearScreen => "CLS"
  | .ret => "RET"
  | .jump nnn => "JP " ++ addrText nnn
  | .call nnn => "CALL " ++ addrText nnn
  | .skipIfEqual x nn => textXNN "SE" x nn
  | .skipIfNotEqual x nn => textXNN "SNE" x nn
  | .skipIfRegEqual x y _ => textXY "SE" x y
  | .setReg x nn => textXNN "LD" x nn
  | .addImmediate x nn => textXNN "ADD" x nn
  | .setRegToReg x y => textXY "LD" x y
  | .or x y => textXY "OR" x y
  | .and x y => textXY "AND" x y
  | .xor x y => textXY "XOR" x y
  | .addRegToReg x y => textXY "ADD" x y
  | .subRegFromReg x y => textXY "SUB" x y
  | .shiftRight x y => textXY "SHR" x y
  | .subReverse x y => textXY "SUBN" x y
  | .shiftLeft x y => textXY "SHL" x y
  | .skipIfRegNotEqual x y _ => textXY "SNE" x y
  | .setIndex nnn => "LD I, " ++ addrText nnn
  | .jumpOffset nnn => "JP V0, " ++ addrText nnn
  | .setRand x nn => textXNN "RND" x nn
  | .draw x y n => textXY "DRW" x y ++ ", " ++ toString n.toNat
  | .skipIfKeyDown x => "SKP " ++ vText x
  | .skipIfKeyUp x => "SKNP " ++ vText x
  | .getDelay x => "LD " ++ vText x ++ ", DT"
  | .waitKey x => "LD " ++ vText x ++ ", K"
  | .setDelay x => "LD DT, " ++ vText x
  | .setSound x => "LD ST, " ++ vText x
  | .addIndex x => "ADD I, " ++ vText x
  | .fontAddr x => "LD F, " ++ vText x
  | .bcd x => "LD B, " ++ vText x
  | .storeRegs x => "LD [I], " ++ vText x
  | .loadRegs x => "LD " ++ vText x ++ ", [I]"

/-- The text of a word; `.word 0xhhhh` for a word whose tag is Undefined (R124). -/
def wordText (w : Word) : String :=
  match decode w with
  | some i => assemblyText i
  | none => ".word 0x" ++
      String.ofList [hexDigit (leadOf w), hexDigit (xOf w), hexDigit (yOf w), hexDigit (nOf w)]

end Sys2Proof.Machine
end

