-- ==== Sys2Proof/Safety.lean ====
section
/-! DEFINITION. The words that claims use: the state's elements one by one, what a transition leaves unchanged, and the invariant of the block. -/

namespace Sys2Proof.Machine

/-- One element of the state: the elements of `10_state.md` section 9 down to a register, a slot, a pixel or a byte,
and the model's configuration and host's side. -/
inductive Element where
  | v (x : Nibble)
  | pc
  | i
  | slot (k : Fin 16)
  | sp
  | dt
  | st
  | pixel (row : Fin 32) (col : Fin 64)
  | runstate
  | fault
  | byte (a : Nat)
  | config
  | host
  deriving DecidableEq, Repr

/-- Two states hold the same in an element. -/
def Agree (s t : State) : Element → Prop
  | .v x => t.getV x = s.getV x
  | .pc => t.pc = s.pc
  | .i => t.i = s.i
  | .slot k => t.stack.get k = s.stack.get k
  | .sp => t.sp = s.sp
  | .dt => t.dt = s.dt
  | .st => t.st = s.st
  | .pixel row col => t.disp.pixel row col = s.disp.pixel row col
  | .runstate => t.runstate = s.runstate
  | .fault => t.fault = s.fault
  | .byte a => t.readByte a = s.readByte a
  | .config => t.config = s.config
  | .host => t.host = s.host

/-- From s to t nothing changes but the elements of a set: the frame of a transition. -/
def ChangesOnly (changed : Element → Prop) (s t : State) : Prop := ∀ e, ¬ changed e → Agree s t e

/-- No element but those of a list changes. -/
abbrev ChangesOnlyIn (changed : List Element) (s t : State) : Prop := ChangesOnly (· ∈ changed) s t

/-- From s to t an instruction's handler raised a fault: the record names the instruction by the address it was fetched
from (PC - 2, since the fetch has advanced PC) and by its word, and nothing else changed (R24, R362). -/
def Raised (i : Instr) (cause : FaultCause) (info : Nat) (s t : State) : Prop :=
  t.runstate = .faulted ∧ t.fault = some ⟨cause, s.pc - 2, encode i, BitVec.ofNat 17 info⟩ ∧
  ChangesOnlyIn [.runstate, .fault] s t

/-- The table of R361: the cause and the info of the fault an instruction raises in a state. No other instruction
faults. -/
def faultOf (i : Instr) (s : State) : Option (FaultCause × Nat) :=
  match i with
  | .call _ => if s.sp.val = 16 then some (.stackOverflow, 16) else none
  | .ret => if s.sp.val = 0 then some (.stackUnderflow, 0) else none
  | .draw _ _ n =>
    if 0 < n.toNat ∧ 0xFFF < s.i.toNat + n.toNat - 1 then some (.memReadOutOfRange, max s.i.toNat 0x1000) else none
  | .loadRegs x =>
    if 0xFFF < s.i.toNat + x.toNat then some (.memReadOutOfRange, max s.i.toNat 0x1000) else none
  | .bcd _ => if 0xFFF < s.i.toNat + 2 then some (.memWriteOutOfRange, max s.i.toNat 0x1000) else none
  | .storeRegs x =>
    if 0xFFF < s.i.toNat + x.toNat then some (.memWriteOutOfRange, max s.i.toNat 0x1000) else none
  | .skipIfKeyDown x => if 15 < (s.getV x).toNat then some (.keyOutOfRange, (s.getV x).toNat) else none
  | .skipIfKeyUp x => if 15 < (s.getV x).toNat then some (.keyOutOfRange, (s.getV x).toNat) else none
  | _ => none

/-- A lit bit of the sprite of n rows at I, started at (V[x], V[y]), falls on a pixel (R292): row r and column c of the
sprite, wrapped at the display's edge under WRAP and only inside it under CLIP. -/
def SpriteCovers (s : State) (x y n : Nibble) (row : Fin 32) (col : Fin 64) : Prop :=
  ∃ r < n.toNat, ∃ c < 8, (s.readByte (s.i.toNat + r)).getLsbD (7 - c) = true ∧
    match s.config.drawEdge with
    | .wrap =>
      ((s.getV y).toNat % 32 + r) % 32 = row.val ∧ ((s.getV x).toNat % 64 + c) % 64 = col.val
    | .clip => (s.getV y).toNat % 32 + r = row.val ∧ (s.getV x).toNat % 64 + c = col.val

/-- The next fetch of a state reads a byte at an address, in the half of the word that R83 gives it, wherever the address
is one of the fetch's two: bits 15:8 at PC, bits 7:0 at PC + 1. -/
def State.FetchReads (s : State) (a : Nat) (b : Byte) : Prop :=
  (s.pc.toNat = a → s.fetchWord.toNat / 256 = b.toNat) ∧ (s.pc.toNat + 1 = a → s.fetchWord.toNat % 256 = b.toNat)

/-- A record that the fault primitive can have made: a failed fetch has no word, and the info is one R361 gives the cause. -/
def FaultRecord.Genuine (r : FaultRecord) : Prop :=
  match r.cause with
  | .fetchOutOfRange =>
    r.word = 0 ∧ 0xFFF ≤ r.pc.toNat ∧ r.info.toNat = (if r.pc.toNat > 0xFFF then r.pc.toNat else r.pc.toNat + 1)
  | .stackOverflow => r.info = 16
  | .stackUnderflow => r.info = 0
  | .memReadOutOfRange => 0x1000 ≤ r.info.toNat ∧ r.info.toNat ≤ 0xFFFF
  | .memWriteOutOfRange => 0x1000 ≤ r.info.toNat ∧ r.info.toNat ≤ 0xFFFF
  | .keyOutOfRange => 0xF < r.info.toNat ∧ r.info.toNat ≤ 0xFF

/-- The invariant of the block. -/
structure State.Inv (s : State) : Prop where
  /-- Memory is in its canonical form, the model's own form of R80 and R88 (log 12). -/
  mem_wf : Memory.wf s.config.font s.mem
  /-- PC is at most 0x10FE (R43). -/
  pc_le : s.pc.toNat ≤ 0x10FE
  /-- Every slot holds an address that Call pushed, at most 0x1000, or its reset value (R43, R180). -/
  slot_le : ∀ k, (s.stack.get k).toNat ≤ 0x1000
  /-- The fault record is NONE exactly where the run state is not FAULTED (R50). -/
  fault_none : s.fault = none ↔ s.runstate ≠ .faulted
  /-- A fault record is one the fault primitive made (R361). -/
  fault_genuine : ∀ r, s.fault = some r → r.Genuine

/-- A run is safe while the block is not FAULTED: no fault of R361 has occurred since reset (R365). -/
def State.Safe (s : State) : Prop := s.runstate ≠ .faulted

end Sys2Proof.Machine
end

