-- ==== Sys2Proof/Certificates/Slice0/Obligations.lean ====
section
/-! DEFINITION. The statements about the model, for the provers. Each docstring names the rules of the spec it formalises. -/

open Sys2Proof Sys2Proof.Machine

/-! ## The decoder -/

/-- Decoding the word of a well-formed instruction gives the instruction back, every operand at every value (R111, R113, R121). -/
def Obligations.DecodeInvertsEncode : Prop :=
  ∀ i : Instr, i.wellFormed = true → decode (encode i) = some i

/-- Every word that decodes to an instruction is that instruction's word, and the instruction is well-formed: no two
words share an instruction and no bit of a defined word is lost (R113, R121). -/
def Obligations.EncodeInvertsDecode : Prop :=
  ∀ (w : Word) (i : Instr), decode w = some i → i.wellFormed = true ∧ encode i = w

/-- The words without an instruction are exactly those of R119's three lists. -/
def Obligations.UndefinedWordsAreExactlyListed : Prop :=
  ∀ w : Word, decode w = none ↔
    (leadOf w = 0x8 ∧ nOf w ∈ [0x8, 0x9, 0xA, 0xB, 0xC, 0xD, 0xF]) ∨
    (leadOf w = 0xE ∧ nnOf w ∉ [0x9E, 0xA1]) ∨
    (leadOf w = 0xF ∧ nnOf w ∉ [0x07, 0x0A, 0x15, 0x18, 0x1E, 0x29, 0x33, 0x55, 0x65])

/-- R123: with each row's match, mask and excludes, exactly one row of the opcode table matches a defined word, the
decoder's tag, and no row matches an Undefined word; in group 0 the exact matches come before the catch-all. -/
def Obligations.OpcodeTableAgreesWithDecoder : Prop :=
  (∀ w : Word, tableTags w = if decodeTag w = .undefined then [] else [decodeTag w]) ∧
  decodeTag 0x00E0 = .clearScreen ∧ decodeTag 0x00EE = .ret ∧
  ∀ w : Word, leadOf w = 0x0#4 → w ≠ 0x00E0#16 → w ≠ 0x00EE#16 → decodeTag w = .machineRoutine

/-- The five fields are the slices R111 gives, for every word whatever its tag, and they overlap as it says. -/
def Obligations.DecoderFieldsAreSlices : Prop :=
  ∀ w : Word,
    (decodeRecord w).nnn.toNat = w.toNat % 2 ^ 12 ∧
    (decodeRecord w).nn.toNat = w.toNat % 2 ^ 8 ∧
    (decodeRecord w).n.toNat = w.toNat % 2 ^ 4 ∧
    (decodeRecord w).x.toNat = w.toNat / 2 ^ 8 % 2 ^ 4 ∧
    (decodeRecord w).y.toNat = w.toNat / 2 ^ 4 % 2 ^ 4 ∧
    (decodeRecord w).nnn = (decodeRecord w).x ++ (decodeRecord w).nn ∧
    (decodeRecord w).nn = (decodeRecord w).y ++ (decodeRecord w).n

/-- Every word that W2 to W6 and the decoder vectors of section 2.1 write out decodes as they say. The row `0xF007 … 0xFF65`
names its nine low bytes by their ends: GetDelay with x = 0, LoadRegs with x = F, and the seven between with the words that
sections 2.5 and 2.7 and the programs write. -/
def Obligations.SpecWordsDecode : Prop :=
  -- W2 to W6
  (decode 0x00E0 = some .clearScreen ∧ decode 0x1ABC = some (.jump 0xABC) ∧ decode 0x6A42 = some (.setReg 0xA 0x42) ∧
    decode 0xD0A4 = some (.draw 0x0 0xA 0x4) ∧ decode 0xA123 = some (.setIndex 0x123)) ∧
  -- section 2.1, groups 0 to 9
  (decode 0x0000 = some (.machineRoutine 0x000) ∧ decode 0x00E1 = some (.machineRoutine 0x0E1) ∧
    decode 0x0FFF = some (.machineRoutine 0xFFF) ∧ decode 0x00EE = some .ret ∧ decode 0x2300 = some (.call 0x300) ∧
    decode 0x512F = some (.skipIfRegEqual 0x1 0x2 0xF) ∧ decode 0x912F = some (.skipIfRegNotEqual 0x1 0x2 0xF)) ∧
  (decode 0x8AB0 = some (.setRegToReg 0xA 0xB) ∧ decode 0x8AB1 = some (.or 0xA 0xB) ∧
    decode 0x8AB2 = some (.and 0xA 0xB) ∧ decode 0x8AB3 = some (.xor 0xA 0xB) ∧
    decode 0x8AB4 = some (.addRegToReg 0xA 0xB) ∧ decode 0x8AB5 = some (.subRegFromReg 0xA 0xB) ∧
    decode 0x8AB6 = some (.shiftRight 0xA 0xB) ∧ decode 0x8AB7 = some (.subReverse 0xA 0xB) ∧
    decode 0x8ABE = some (.shiftLeft 0xA 0xB)) ∧
  -- section 2.1, groups B to F
  (decode 0xE09E = some (.skipIfKeyDown 0x0) ∧ decode 0xEF9E = some (.skipIfKeyDown 0xF) ∧
    decode 0xE0A1 = some (.skipIfKeyUp 0x0) ∧ decode 0xE5A1 = some (.skipIfKeyUp 0x5) ∧
    decode 0xBFFF = some (.jumpOffset 0xFFF) ∧ decode 0xC3FF = some (.setRand 0x3 0xFF)) ∧
  (decode 0xF007 = some (.getDelay 0x0) ∧ decode 0xF30A = some (.waitKey 0x3) ∧ decode 0xF015 = some (.setDelay 0x0) ∧
    decode 0xF018 = some (.setSound 0x0) ∧ decode 0xF01E = some (.addIndex 0x0) ∧ decode 0xF029 = some (.fontAddr 0x0) ∧
    decode 0xF033 = some (.bcd 0x0) ∧ decode 0xF055 = some (.storeRegs 0x0) ∧ decode 0xFF65 = some (.loadRegs 0xF)) ∧
  -- section 2.1, the Undefined words
  [0x8008, 0x800D, 0x800F, 0xE19F, 0xE0A2, 0xE000, 0xF000, 0xF0FF, 0xF108, 0xF130].map decode = List.replicate 10 none

/-! ## The cycle driver -/

/-- R83: the fetched word is `mem[PC] * 256 + mem[PC + 1]`: the byte at the lower address is bits 15:8, at an odd PC too. -/
def Obligations.FetchIsBigEndian : Prop :=
  ∀ s : State,
    s.fetchWord.toNat = (s.readByte s.pc.toNat).toNat * 256 + (s.readByte (s.pc.toNat + 1)).toNat

/-- A step of a RUNNING block whose fetch is in range runs the decoded instruction, on the state with the host's request
taken, its inputs sampled and PC advanced by 2 (R150). -/
def Obligations.StepRunsTheDecodedInstruction : Prop :=
  ∀ (s : State) (keys : BitVec 16) (rand8 : Byte) (i : Instr),
    s.nextRequest = .step keys rand8 → s.runstate = .running → s.pc.toNat + 1 ≤ 0xFFF →
    decode s.fetchWord = some i →
    step s = exec i { s with pc := s.pc + 2, host := { s.takeRequest.host with keys := keys, rand8 := rand8 } }

/-- R157: an Undefined word changes nothing but PC, which the fetch has advanced by 2; the step reports the word. -/
def Obligations.UndefinedWordIsNoOp : Prop :=
  ∀ (s : State) (keys : BitVec 16) (rand8 : Byte),
    s.runstate = .running → s.pc.toNat + 1 ≤ 0xFFF → decodeTag s.fetchWord = .undefined →
    (∃ t, s.stepCore keys rand8 = .next t ∧ t.pc = s.pc + 2 ∧ ChangesOnlyIn [.pc, .host] s t) ∧
    s.stepReport keys rand8 = .next (.executed s.pc s.fetchWord (decodeRecord s.fetchWord))

/-- A fetch that is not in range faults with cause 1, the PC as pc, no word and the lowest out-of-range address as info;
PC and everything else stay (R150, R361, R362). -/
def Obligations.FetchOutOfRangeFaults : Prop :=
  ∀ (s : State) (keys : BitVec 16) (rand8 : Byte),
    s.runstate = .running → 0xFFF < s.pc.toNat + 1 →
    ∃ t r, s.stepCore keys rand8 = .next t ∧ t.runstate = .faulted ∧ t.fault = some r ∧
      r.cause = .fetchOutOfRange ∧ r.pc = s.pc ∧ r.word = 0 ∧
      r.info.toNat = (if 0xFFF < s.pc.toNat then s.pc.toNat else s.pc.toNat + 1) ∧
      ChangesOnlyIn [.runstate, .fault, .host] s t

/-- R151: in AWAITING_KEY a step changes no state and returns Blocked, whatever KEYS and RAND8 are. -/
def Obligations.StepBlocksWhileAwaitingKey : Prop :=
  ∀ (s : State) (x : Nibble) (keys : BitVec 16) (rand8 : Byte), s.runstate = .awaitingKey x →
    s.stepCore keys rand8 = .next s ∧ s.stepReport keys rand8 = .next .blocked

/-- R152, R365: in FAULTED a step changes no state and returns the stored record; only reset leaves FAULTED and clears
the record; a key event is ignored, the timers still tick, and a ROM is loaded as in every state. FAULTED is the spec's
own decision D17. -/
def Obligations.FaultIsStickyUntilReset : Prop :=
  ∀ s : State, s.runstate = .faulted →
    (∀ keys rand8, s.stepCore keys rand8 = .next s ∧ s.stepReport keys rand8 = .next (.faulted s.fault)) ∧
    (∀ r t, s.transact r = .next t → r ≠ .reset → t.runstate = .faulted ∧ t.fault = s.fault) ∧
    (∀ k, s.transact (.deliverKeyEvent k) = .next s) ∧
    (∃ t, s.transact .tickTimers = .next t ∧
      t.dt.toNat = s.dt.toNat - 1 ∧ t.st.toNat = s.st.toNat - 1 ∧ ChangesOnlyIn [.dt, .st] s t) ∧
    (∀ bytes : List Byte, bytes.length ≤ 3584 → ∃ t, s.transact (.loadRom bytes) = .next t ∧
      (∀ k (h : k < bytes.length), t.readByte (0x200 + k) = bytes[k]) ∧
      ChangesOnly (fun e => ∃ k < bytes.length, e = .byte (0x200 + k)) s t) ∧
    (∀ bytes : List Byte, 3584 < bytes.length → s.transact (.loadRom bytes) = .next s) ∧
    (∃ t, s.transact .reset = .next t ∧ t.runstate = .running ∧ t.fault = none)

/-- Every transaction of the block completes, in every state: decode never fails, no word is illegal, and no handler stops
the machine (R3, R113, R120, R154). -/
def Obligations.EveryTransactionCompletes : Prop :=
  (∀ (s : State) (r : Request), ∃ t, s.transact r = .next t) ∧ ∀ s : State, ∃ t, step s = .next t

/-- R155, R156: a step of a RUNNING block reports Executed, with the fetch address, the word and the record, exactly where
it does not fault, and otherwise the new fault record. -/
def Obligations.StepReportsWhatRan : Prop :=
  ∀ (s t : State) (keys : BitVec 16) (rand8 : Byte), s.runstate = .running → s.stepCore keys rand8 = .next t →
    (t.runstate ≠ .faulted →
      s.stepReport keys rand8 = .next (.executed s.pc s.fetchWord (decodeRecord s.fetchWord))) ∧
    (t.runstate = .faulted → s.stepReport keys rand8 = .next (.faulted t.fault))

/-! ## Faults -/

/-- The faults of the handlers are those of R361's table and no others: the cause, the info, and the condition for each
instruction, from any state that is not FAULTED. The codes and the key fault are the spec's decisions D18 and D25. -/
def Obligations.HandlersFaultExactlyByTheTable : Prop :=
  ∀ (i : Instr) (s t : State), s.runstate ≠ .faulted → exec i s = .next t →
    match faultOf i s with
    | some (cause, info) => Raised i cause info s t
    | none => t.runstate ≠ .faulted ∧ t.fault = s.fault

/-- Faults are precise (R362, R363): a step that ends FAULTED has no effect besides the fetch's PC advance, and the record
names the instruction by the address and the word that were fetched. -/
def Obligations.FaultsArePrecise : Prop :=
  ∀ (s t : State) (keys : BitVec 16) (rand8 : Byte),
    s.runstate = .running → s.stepCore keys rand8 = .next t → t.runstate = .faulted →
    ∃ r, t.fault = some r ∧ r.pc = s.pc ∧
      r.word = (if r.cause = .fetchOutOfRange then 0 else s.fetchWord) ∧
      t.pc = (if r.cause = .fetchOutOfRange then s.pc else s.pc + 2) ∧
      ChangesOnlyIn [.pc, .runstate, .fault, .host] s t

/-! ## Invariants -/

/-- The invariant of the block is kept by every step, whatever the host asks for: PC stays at most 0x10FE and every stack
slot at most 0x1000 (R43), the fault record is NONE exactly where the run state is not FAULTED (R50), and genuine by R361
where it is not NONE; and memory stays in its canonical form, which is the model's own choice and no rule's (log 12). -/
def Obligations.InvariantKeptByEveryStep : Prop :=
  ∀ s t : State, s.Inv → step s = .next t → t.Inv

/-- The state after reset meets the invariant: the clauses on PC, the slots and the fault record follow from the reset
values of R400; the canonical form of memory is the model's own choice and no rule's (log 12). -/
def Obligations.ResetMeetsTheInvariant : Prop := State.reset.Inv

/-- No transaction changes the configuration, which is fixed for the lifetime of an instance (R51), and no instruction
changes it. That no instruction changes the host's side either speaks of the model's own field and rests on no rule (log 2,
3 and 4). -/
def Obligations.ConfigurationIsFixed : Prop :=
  (∀ (s t : State) (r : Request), s.transact r = .next t → t.config = s.config) ∧
  (∀ (i : Instr) (s t : State), exec i s = .next t → t.config = s.config ∧ t.host = s.host)

/-! ## Which instructions reach which state -/

/-- R46: only Call and Return read or write the stack and SP: every other instruction does the same whatever they hold, and
leaves them as they are. -/
def Obligations.OnlyCallAndReturnUseTheStack : Prop :=
  ∀ (i : Instr) (s t : State) (slots : Vector Word 16) (sp : Fin 17),
    i ≠ .ret → (∀ nnn, i ≠ .call nnn) → exec i s = .next t →
    t.stack = s.stack ∧ t.sp = s.sp ∧
    exec i { s with stack := slots, sp := sp } = .next { t with stack := slots, sp := sp }

/-- R47: only SetDelay and GetDelay reach DT, only SetSound reaches ST: every other instruction does the same whatever the
timer holds, and leaves it as it is; and GetDelay leaves DT as it is. -/
def Obligations.OnlyTimerInstructionsUseTheTimers : Prop :=
  (∀ (i : Instr) (s t : State) (b : Byte), (∀ x, i ≠ .setDelay x) → (∀ x, i ≠ .getDelay x) → exec i s = .next t →
    t.dt = s.dt ∧ exec i { s with dt := b } = .next { t with dt := b }) ∧
  (∀ (i : Instr) (s t : State) (b : Byte), (∀ x, i ≠ .setSound x) → exec i s = .next t →
    t.st = s.st ∧ exec i { s with st := b } = .next { t with st := b }) ∧
  (∀ (x : Nibble) (s t : State), exec (.getDelay x) s = .next t → t.dt = s.dt)

/-- R48, R290: only ClearScreen and Draw write the display, and no other instruction reads it. -/
def Obligations.OnlyClearAndDrawUseTheDisplay : Prop :=
  ∀ (i : Instr) (s t : State) (d : Display),
    i ≠ .clearScreen → (∀ x y n, i ≠ .draw x y n) → exec i s = .next t →
    t.disp = s.disp ∧ exec i { s with disp := d } = .next { t with disp := d }

/-- R80: of the instructions only Draw, Bcd, StoreRegs and LoadRegs touch memory, and only Bcd and StoreRegs write it. -/
def Obligations.OnlyFourInstructionsTouchMemory : Prop :=
  (∀ (i : Instr) (s t : State) (m : List Host.Cell),
    (∀ x y n, i ≠ .draw x y n) → (∀ x, i ≠ .bcd x) → (∀ x, i ≠ .storeRegs x) → (∀ x, i ≠ .loadRegs x) →
    exec i s = .next t → t.mem = s.mem ∧ exec i { s with mem := m } = .next { t with mem := m }) ∧
  (∀ (i : Instr) (s t : State), (∀ x, i ≠ .bcd x) → (∀ x, i ≠ .storeRegs x) → exec i s = .next t → t.mem = s.mem)

/-- R44: I is written only by SetIndex, AddIndex and FontAddr, and by StoreRegs and LoadRegs where P_LS_INC_I is TRUE; it is
read only by Draw, Bcd, StoreRegs, LoadRegs and AddIndex: SetIndex and FontAddr write the same I whatever it held, and
every other instruction does the same whatever it holds. -/
def Obligations.OnlyIndexInstructionsUseI : Prop :=
  (∀ (i : Instr) (s t : State),
    (∀ nnn, i ≠ .setIndex nnn) → (∀ x, i ≠ .addIndex x) → (∀ x, i ≠ .fontAddr x) →
    (s.config.lsIncI = true → (∀ x, i ≠ .storeRegs x) ∧ (∀ x, i ≠ .loadRegs x)) →
    exec i s = .next t → t.i = s.i) ∧
  (∀ (i : Instr) (s t : State) (a : Word),
    ((∃ nnn, i = .setIndex nnn) ∨ ∃ x, i = .fontAddr x) → exec i s = .next t →
    exec i { s with i := a } = .next t) ∧
  (∀ (i : Instr) (s t : State) (a : Word),
    (∀ nnn, i ≠ .setIndex nnn) → (∀ x, i ≠ .addIndex x) → (∀ x, i ≠ .fontAddr x) →
    (∀ x y n, i ≠ .draw x y n) → (∀ x, i ≠ .bcd x) → (∀ x, i ≠ .storeRegs x) → (∀ x, i ≠ .loadRegs x) →
    exec i s = .next t → exec i { s with i := a } = .next { t with i := a })

/-- R28: KEYS is read only by SkipIfKeyDown and SkipIfKeyUp, RAND8 only by SetRand. -/
def Obligations.OnlyThreeInstructionsReadTheInputs : Prop :=
  (∀ (i : Instr) (s t : State) (keys : BitVec 16),
    (∀ x, i ≠ .skipIfKeyDown x) → (∀ x, i ≠ .skipIfKeyUp x) → exec i s = .next t →
    exec i (s.sampleInputs keys s.rand8) = .next (t.sampleInputs keys t.rand8)) ∧
  (∀ (i : Instr) (s t : State) (rand8 : Byte),
    (∀ x nn, i ≠ .setRand x nn) → exec i s = .next t →
    exec i (s.sampleInputs s.host.keys rand8) = .next (t.sampleInputs t.host.keys rand8))

/-- R41: an instruction changes VF only as its destination register (x = F, or within the block that LoadRegs loads), or
as a flag: 8xy4, 8xy5, 8xy7 under CANONICAL, 8xy6, 8xyE, and Draw. -/
def Obligations.VfIsWrittenOnlyByItsWriters : Prop :=
  ∀ (i : Instr) (s t : State), exec i s = .next t → t.getV 0xF ≠ s.getV 0xF →
    (∃ nn, i = .setReg 0xF nn) ∨ (∃ nn, i = .addImmediate 0xF nn) ∨ (∃ nn, i = .setRand 0xF nn) ∨
    (∃ y, i = .setRegToReg 0xF y) ∨ (∃ y, i = .or 0xF y) ∨ (∃ y, i = .and 0xF y) ∨ (∃ y, i = .xor 0xF y) ∨
    (∃ x y, (i = .addRegToReg x y ∨ i = .subRegFromReg x y ∨ i = .subReverse x y) ∧
      (x = 0xF ∨ s.config.arithVf = .canonical)) ∨
    (∃ x y, i = .shiftRight x y ∨ i = .shiftLeft x y) ∨ (∃ x y n, i = .draw x y n) ∨
    i = .getDelay 0xF ∨ i = .loadRegs 0xF

/-! ## Control transfer -/

/-- R158: a MachineRoutine word, every 0nnn but 00E0 and 00EE, changes nothing beyond the fetch's PC advance. -/
def Obligations.MachineRoutineIsNoOp : Prop :=
  ∀ nnn : Addr12, (nnn ≠ 0x0E0#12 → nnn ≠ 0x0EE#12 → decode (wordNNN 0x0 nnn) = some (.machineRoutine nnn)) ∧
    ∀ s : State, ∃ t, exec (.machineRoutine nnn) s = .next t ∧ ChangesOnlyIn [] s t

/-- R181: Jump sets PC to nnn, zero-extended, and changes nothing else, for every target. -/
def Obligations.JumpSetsPc : Prop :=
  ∀ nnn : Addr12, decode (wordNNN 0x1 nnn) = some (.jump nnn) ∧
    ∀ s : State, ∃ t, exec (.jump nnn) s = .next t ∧ t.pc.toNat = nnn.toNat ∧ ChangesOnlyIn [.pc] s t

/-- R182: Call pushes the already advanced PC, counts the slot and jumps to nnn; with all 16 slots in use it faults with
STACK_OVERFLOW and info 16 (the fault is the spec's decision D15). -/
def Obligations.CallPushesAndJumps : Prop :=
  ∀ nnn : Addr12, decode (wordNNN 0x2 nnn) = some (.call nnn) ∧
    (∀ (s : State) (h : s.sp.val < 16), ∃ t, exec (.call nnn) s = .next t ∧
      t.stack.get ⟨s.sp.val, h⟩ = s.pc ∧ t.sp.val = s.sp.val + 1 ∧ t.pc.toNat = nnn.toNat ∧
      ChangesOnlyIn [.slot ⟨s.sp.val, h⟩, .sp, .pc] s t) ∧
    (∀ s : State, s.sp.val = 16 →
      ∃ t, exec (.call nnn) s = .next t ∧ Raised (.call nnn) .stackOverflow 16 s t)

/-- R180: Return counts one slot less and sets PC to the value of the slot it leaves, which keeps its value; with an empty
stack it faults with STACK_UNDERFLOW and info 0 (the fault is the spec's decision D15). -/
def Obligations.ReturnPopsPc : Prop :=
  decode 0x00EE = some .ret ∧
  (∀ (s : State) (k : Fin 16), s.sp.val = k.val + 1 → ∃ t, exec .ret s = .next t ∧
    t.sp.val = k.val ∧ t.pc = s.stack.get k ∧ ChangesOnlyIn [.sp, .pc] s t) ∧
  (∀ s : State, s.sp.val = 0 → ∃ t, exec .ret s = .next t ∧ Raised .ret .stackUnderflow 0 s t)

/-- W9: after a Call, whatever runs in between, a Return that finds SP and the pushed slot as the Call left them sets PC to
the address after the Call, and SP to what it was before it (R180, R182). -/
def Obligations.ReturnUndoesCall : Prop :=
  ∀ (nnn : Addr12) (s t u : State) (h : s.sp.val < 16),
    exec (.call nnn) s = .next t → u.sp = t.sp → u.stack.get ⟨s.sp.val, h⟩ = t.stack.get ⟨s.sp.val, h⟩ →
    ∃ r, exec .ret u = .next r ∧ r.pc = s.pc ∧ r.sp = s.sp ∧ ChangesOnlyIn [.sp, .pc] u r

/-- R183 to R186, R188: each register skip adds 2 to the already advanced PC where its condition holds, leaves PC where
it does not, and changes nothing else; the nibble n of groups 5 and 9 is ignored. That n is ignored is the spec's
decision D41. -/
def Obligations.RegisterSkipsFollowTheirConditions : Prop :=
  ∀ (x y n : Nibble) (nn : Byte),
    (decode (wordXNN 0x3 x nn) = some (.skipIfEqual x nn) ∧ decode (wordXNN 0x4 x nn) = some (.skipIfNotEqual x nn) ∧
      decode (wordXYN 0x5 x y n) = some (.skipIfRegEqual x y n) ∧
      decode (wordXYN 0x9 x y n) = some (.skipIfRegNotEqual x y n)) ∧
    ∀ s : State,
      (∃ t, exec (.skipIfEqual x nn) s = .next t ∧
        t.pc = (if s.getV x = nn then s.pc + 2 else s.pc) ∧ ChangesOnlyIn [.pc] s t) ∧
      (∃ t, exec (.skipIfNotEqual x nn) s = .next t ∧
        t.pc = (if s.getV x ≠ nn then s.pc + 2 else s.pc) ∧ ChangesOnlyIn [.pc] s t) ∧
      (∃ t, exec (.skipIfRegEqual x y n) s = .next t ∧
        t.pc = (if s.getV x = s.getV y then s.pc + 2 else s.pc) ∧ ChangesOnlyIn [.pc] s t) ∧
      (∃ t, exec (.skipIfRegNotEqual x y n) s = .next t ∧
        t.pc = (if s.getV x ≠ s.getV y then s.pc + 2 else s.pc) ∧ ChangesOnlyIn [.pc] s t)

/-- R187: JumpOffset sets PC to nnn plus V0, or plus V[nnn[11:8]] under P_JUMP_OFFSET_REG = VX, neither wrapped nor masked,
and changes nothing else. -/
def Obligations.JumpOffsetAddsTheRegister : Prop :=
  ∀ nnn : Addr12, decode (wordNNN 0xB nnn) = some (.jumpOffset nnn) ∧
    ∀ s : State, ∃ t, exec (.jumpOffset nnn) s = .next t ∧
      (s.config.jumpOffsetReg = .v0 → t.pc.toNat = nnn.toNat + (s.getV 0x0).toNat) ∧
      (s.config.jumpOffsetReg = .vx → t.pc.toNat = nnn.toNat + (s.getV (BitVec.ofNat 4 (nnn.toNat / 256))).toNat) ∧
      ChangesOnlyIn [.pc] s t

/-! ## Register operations -/

/-- R212: SetReg writes nn into V[x], VF included, and changes nothing else. -/
def Obligations.SetRegWritesTheImmediate : Prop :=
  ∀ (x : Nibble) (nn : Byte), decode (wordXNN 0x6 x nn) = some (.setReg x nn) ∧
    ∀ s : State, ∃ t, exec (.setReg x nn) s = .next t ∧ t.getV x = nn ∧ ChangesOnlyIn [.v x] s t

/-- R213: AddImmediate adds nn to V[x] modulo 256 and writes no flag under either P_ARITH_VF; nothing else changes. No
flag under CANONICAL is the spec's decision D13. -/
def Obligations.AddImmediateWrapsWithoutFlag : Prop :=
  ∀ (x : Nibble) (nn : Byte), decode (wordXNN 0x7 x nn) = some (.addImmediate x nn) ∧
    ∀ s : State, ∃ t, exec (.addImmediate x nn) s = .next t ∧
      (t.getV x).toNat = ((s.getV x).toNat + nn.toNat) % 256 ∧ ChangesOnlyIn [.v x] s t

/-- R214 to R217: the move and the logic operations write their result into V[x] and nothing else, VF included unless it
is V[x]. That the logic operations leave VF is the spec's decision D12. -/
def Obligations.MoveAndLogicWriteOnlyVx : Prop :=
  ∀ x y : Nibble,
    (decode (wordXYN 0x8 x y 0x0) = some (.setRegToReg x y) ∧ decode (wordXYN 0x8 x y 0x1) = some (.or x y) ∧
      decode (wordXYN 0x8 x y 0x2) = some (.and x y) ∧ decode (wordXYN 0x8 x y 0x3) = some (.xor x y)) ∧
    ∀ s : State,
      (∃ t, exec (.setRegToReg x y) s = .next t ∧ t.getV x = s.getV y ∧ ChangesOnlyIn [.v x] s t) ∧
      (∃ t, exec (.or x y) s = .next t ∧ t.getV x = s.getV x ||| s.getV y ∧ ChangesOnlyIn [.v x] s t) ∧
      (∃ t, exec (.and x y) s = .next t ∧ t.getV x = s.getV x &&& s.getV y ∧ ChangesOnlyIn [.v x] s t) ∧
      (∃ t, exec (.xor x y) s = .next t ∧ t.getV x = s.getV x ^^^ s.getV y ∧ ChangesOnlyIn [.v x] s t)

/-- R218, R219, R221 with the write order of R211. The result is the sum or difference modulo 256 of the old values.
Under P_ARITH_VF = CANONICAL VF ends as the carry or the no-borrow, also where x = F; under REFERENCE it is unchanged
unless it is the destination. Nothing else changes. The two modes and the write order are the spec's decisions D8 and
D10. -/
def Obligations.ArithmeticFollowsArithVf : Prop :=
  ∀ x y : Nibble,
    (decode (wordXYN 0x8 x y 0x4) = some (.addRegToReg x y) ∧ decode (wordXYN 0x8 x y 0x5) = some (.subRegFromReg x y) ∧
      decode (wordXYN 0x8 x y 0x7) = some (.subReverse x y)) ∧
    (∀ s : State, s.config.arithVf = .canonical →
      (∃ t, exec (.addRegToReg x y) s = .next t ∧
        (x ≠ 0xF → (t.getV x).toNat = ((s.getV x).toNat + (s.getV y).toNat) % 256) ∧
        (t.getV 0xF).toNat = (if 0xFF < (s.getV x).toNat + (s.getV y).toNat then 1 else 0) ∧
        ChangesOnlyIn [.v x, .v 0xF] s t) ∧
      (∃ t, exec (.subRegFromReg x y) s = .next t ∧
        (x ≠ 0xF → (t.getV x).toNat = ((s.getV x).toNat + 256 - (s.getV y).toNat) % 256) ∧
        (t.getV 0xF).toNat = (if (s.getV y).toNat ≤ (s.getV x).toNat then 1 else 0) ∧
        ChangesOnlyIn [.v x, .v 0xF] s t) ∧
      (∃ t, exec (.subReverse x y) s = .next t ∧
        (x ≠ 0xF → (t.getV x).toNat = ((s.getV y).toNat + 256 - (s.getV x).toNat) % 256) ∧
        (t.getV 0xF).toNat = (if (s.getV x).toNat ≤ (s.getV y).toNat then 1 else 0) ∧
        ChangesOnlyIn [.v x, .v 0xF] s t)) ∧
    (∀ s : State, s.config.arithVf = .reference →
      (∃ t, exec (.addRegToReg x y) s = .next t ∧
        (t.getV x).toNat = ((s.getV x).toNat + (s.getV y).toNat) % 256 ∧ ChangesOnlyIn [.v x] s t) ∧
      (∃ t, exec (.subRegFromReg x y) s = .next t ∧
        (t.getV x).toNat = ((s.getV x).toNat + 256 - (s.getV y).toNat) % 256 ∧ ChangesOnlyIn [.v x] s t) ∧
      (∃ t, exec (.subReverse x y) s = .next t ∧
        (t.getV x).toNat = ((s.getV y).toNat + 256 - (s.getV x).toNat) % 256 ∧ ChangesOnlyIn [.v x] s t))

/-- R220, R222: the shifts move the source, V[x] under P_SHIFT_SRC = VX and V[y] under VY, by one bit into V[x]; VF
always ends as the bit shifted out, also where x = F; nothing else changes. The source parameter is the spec's decision
D11. -/
def Obligations.ShiftsStoreTheBitShiftedOut : Prop :=
  ∀ x y : Nibble,
    (decode (wordXYN 0x8 x y 0x6) = some (.shiftRight x y) ∧ decode (wordXYN 0x8 x y 0xE) = some (.shiftLeft x y)) ∧
    ∀ (s : State) (src : Byte), src = (if s.config.shiftSrc = .vx then s.getV x else s.getV y) →
      (∃ t, exec (.shiftRight x y) s = .next t ∧ (x ≠ 0xF → (t.getV x).toNat = src.toNat / 2) ∧
        (t.getV 0xF).toNat = src.toNat % 2 ∧ ChangesOnlyIn [.v x, .v 0xF] s t) ∧
      (∃ t, exec (.shiftLeft x y) s = .next t ∧ (x ≠ 0xF → (t.getV x).toNat = src.toNat * 2 % 256) ∧
        (t.getV 0xF).toNat = src.toNat / 128 ∧ ChangesOnlyIn [.v x, .v 0xF] s t)

/-- R223: SetRand writes the step's RAND8 draw and nn into V[x], for every draw, and changes nothing else. The free draw
is the spec's decision D27. -/
def Obligations.SetRandMasksTheDraw : Prop :=
  ∀ (x : Nibble) (nn : Byte), decode (wordXNN 0xC x nn) = some (.setRand x nn) ∧
    ∀ (s : State) (keys : BitVec 16) (draw : Byte), ∃ t,
      exec (.setRand x nn) (s.sampleInputs keys draw) = .next t ∧ t.getV x = draw &&& nn ∧
      ChangesOnlyIn [.v x] (s.sampleInputs keys draw) t

/-! ## Index and memory -/

/-- R260 to R262: SetIndex, AddIndex modulo 2^16 with no flag and no fault, and FontAddr by the low nibble of V[x];
nothing but I changes. That AddIndex has no flag and no fault is the spec's decision D23. -/
def Obligations.IndexInstructionsSetI : Prop :=
  ∀ (nnn : Addr12) (x : Nibble),
    (decode (wordNNN 0xA nnn) = some (.setIndex nnn) ∧ decode (wordXNN 0xF x 0x1E) = some (.addIndex x) ∧
      decode (wordXNN 0xF x 0x29) = some (.fontAddr x)) ∧
    ∀ s : State,
      (∃ t, exec (.setIndex nnn) s = .next t ∧ t.i.toNat = nnn.toNat ∧ ChangesOnlyIn [.i] s t) ∧
      (∃ t, exec (.addIndex x) s = .next t ∧
        t.i.toNat = (s.i.toNat + (s.getV x).toNat) % 2 ^ 16 ∧ ChangesOnlyIn [.i] s t) ∧
      (∃ t, exec (.fontAddr x) s = .next t ∧
        t.i.toNat = 0x050 + (s.getV x).toNat % 16 * 5 ∧ ChangesOnlyIn [.i] s t)

/-- R263: Bcd stores the hundreds, tens and units digits of V[x] at I, I+1 and I+2 and changes no other byte, no
register and no flag; where I + 2 > 0xFFF it faults with MEM_WRITE_OUT_OF_RANGE and stores nothing. The order of the
digits is the spec's decision D24, the fault D16. -/
def Obligations.BcdStoresThreeDigits : Prop :=
  ∀ x : Nibble, decode (wordXNN 0xF x 0x33) = some (.bcd x) ∧
    (∀ s : State, s.i.toNat + 2 ≤ 0xFFF → ∃ t, exec (.bcd x) s = .next t ∧
      (t.readByte (s.indexAddr 0)).toNat = (s.getV x).toNat / 100 ∧
      (t.readByte (s.indexAddr 1)).toNat = (s.getV x).toNat / 10 % 10 ∧
      (t.readByte (s.indexAddr 2)).toNat = (s.getV x).toNat % 10 ∧
      ChangesOnlyIn [.byte (s.indexAddr 0), .byte (s.indexAddr 1), .byte (s.indexAddr 2)] s t) ∧
    (∀ s : State, 0xFFF < s.i.toNat + 2 → ∃ t, exec (.bcd x) s = .next t ∧
      Raised (.bcd x) .memWriteOutOfRange (max s.i.toNat 0x1000) s t)

/-- R264: StoreRegs stores V[k] at I + k for every k up to x and changes no other byte and no register; I is advanced by
x + 1 modulo 2^16 where P_LS_INC_I is TRUE and kept otherwise; where I + x > 0xFFF it faults and stores nothing. The
layout and P_LS_INC_I are the spec's decision D22, the fault D16. -/
def Obligations.StoreRegsStoresTheBlock : Prop :=
  ∀ x : Nibble, decode (wordXNN 0xF x 0x55) = some (.storeRegs x) ∧
    (∀ s : State, s.i.toNat + x.toNat ≤ 0xFFF → ∃ t, exec (.storeRegs x) s = .next t ∧
      (∀ k : Nibble, k.toNat ≤ x.toNat → t.readByte (s.indexAddr k.toNat) = s.getV k) ∧
      t.i.toNat = (if s.config.lsIncI = true then (s.i.toNat + x.toNat + 1) % 2 ^ 16 else s.i.toNat) ∧
      ChangesOnly (fun e => e = .i ∨ ∃ k : Nat, k ≤ x.toNat ∧ e = .byte (s.indexAddr k)) s t) ∧
    (∀ s : State, 0xFFF < s.i.toNat + x.toNat → ∃ t, exec (.storeRegs x) s = .next t ∧
      Raised (.storeRegs x) .memWriteOutOfRange (max s.i.toNat 0x1000) s t)

/-- R265: LoadRegs loads V[k] from I + k for every k up to x and changes no other register and no byte; I as for
StoreRegs; where I + x > 0xFFF it faults and loads nothing. The layout and P_LS_INC_I are the spec's decision D22, the
fault D16. -/
def Obligations.LoadRegsLoadsTheBlock : Prop :=
  ∀ x : Nibble, decode (wordXNN 0xF x 0x65) = some (.loadRegs x) ∧
    (∀ s : State, s.i.toNat + x.toNat ≤ 0xFFF → ∃ t, exec (.loadRegs x) s = .next t ∧
      (∀ k : Nibble, k.toNat ≤ x.toNat → t.getV k = s.readByte (s.indexAddr k.toNat)) ∧
      t.i.toNat = (if s.config.lsIncI = true then (s.i.toNat + x.toNat + 1) % 2 ^ 16 else s.i.toNat) ∧
      ChangesOnly (fun e => e = .i ∨ ∃ k : Nibble, k.toNat ≤ x.toNat ∧ e = .v k) s t) ∧
    (∀ s : State, 0xFFF < s.i.toNat + x.toNat → ∃ t, exec (.loadRegs x) s = .next t ∧
      Raised (.loadRegs x) .memReadOutOfRange (max s.i.toNat 0x1000) s t)

/-- LoadRegs after StoreRegs with the same I and x restores the stored registers, whatever the other registers have become
in between (R264, R265). -/
def Obligations.LoadRestoresWhatStoreSaved : Prop :=
  ∀ (x : Nibble) (s t u : State), s.i.toNat + x.toNat ≤ 0xFFF → exec (.storeRegs x) s = .next t →
    u.mem = t.mem → u.config = t.config → u.i = s.i →
    ∃ r, exec (.loadRegs x) u = .next r ∧ ∀ k : Nibble, k.toNat ≤ x.toNat → r.getV k = s.getV k

/-- A read returns the last byte written to its address, and a write leaves every other address alone (R81, R87). That a
write in range keeps memory in its canonical form is the model's own choice and no rule's (log 12). -/
def Obligations.ReadReturnsTheLastWrite : Prop :=
  ∀ (s : State) (a b : Nat) (x : Byte), a ≤ 0xFFF →
    (s.writeByte a x).readByte b = (if b = a then x else s.readByte b) ∧
    ChangesOnlyIn [.byte a] s (s.writeByte a x) ∧
    (Memory.wf s.config.font s.mem → Memory.wf s.config.font (s.writeByte a x).mem)

/-- The canonical form is canonical: two memories in it that read alike at every address of the block are the same list
(the model's own form of R80 and R88; log 12). -/
def Obligations.CanonicalMemoriesReadingAlikeAreEqual : Prop :=
  ∀ (font : Font) (m m' : List Host.Cell), Memory.wf font m → Memory.wf font m' →
    (∀ a ≤ 0xFFF, Memory.read font m a = Memory.read font m' a) → m = m'

/-- R95: every byte that StoreRegs, Bcd or `load_rom` writes is what the very next fetch of its address reads, whether the
address is PC or PC + 1, and wherever in the written block it lies. -/
def Obligations.FetchSeesTheStoredBytes : Prop :=
  (∀ (x : Nibble) (s : State), s.i.toNat + x.toNat ≤ 0xFFF → ∃ t, exec (.storeRegs x) s = .next t ∧ t.pc = s.pc ∧
    ∀ k : Nibble, k.toNat ≤ x.toNat → t.FetchReads (s.indexAddr k.toNat) (s.getV k)) ∧
  (∀ (x : Nibble) (s : State), s.i.toNat + 2 ≤ 0xFFF → ∃ t, exec (.bcd x) s = .next t ∧ t.pc = s.pc ∧
    t.FetchReads (s.indexAddr 0) (s.getV x / 100) ∧ t.FetchReads (s.indexAddr 1) (s.getV x / 10 % 10) ∧
    t.FetchReads (s.indexAddr 2) (s.getV x % 10)) ∧
  (∀ (s : State) (bytes : List Byte), bytes.length ≤ 3584 → ∃ t, s.transact (.loadRom bytes) = .next t ∧ t.pc = s.pc ∧
    ∀ k (h : k < bytes.length), t.FetchReads (0x200 + k) bytes[k])

/-! ## Display -/

/-- R291: ClearScreen makes every pixel 0, whatever it was, and changes nothing else. -/
def Obligations.ClearScreenClearsEveryPixel : Prop :=
  decode 0x00E0 = some .clearScreen ∧
  ∀ s : State, ∃ t, exec .clearScreen s = .next t ∧ (∀ row col, t.disp.pixel row col = false) ∧
    ChangesOnly (fun e => ∃ row col, e = .pixel row col) s t

/-- R292, R293: Draw flips exactly the pixels that a lit bit of the sprite falls on, under WRAP and under CLIP; VF ends
as 1 where one of them was lit before, and as 0 otherwise; the coordinates are the old V[x] and V[y]; n = 0 draws
nothing, reads nothing and checks nothing; nothing but VF and those pixels changes; an out-of-range sprite faults and
changes nothing. The edge parameter and the corners are the spec's decisions D20 and D21, the fault D16. -/
def Obligations.DrawXorsTheSprite : Prop :=
  ∀ x y n : Nibble, decode (wordXYN 0xD x y n) = some (.draw x y n) ∧
    (∀ s : State, n = 0 ∨ s.i.toNat + n.toNat - 1 ≤ 0xFFF → ∃ t, exec (.draw x y n) s = .next t ∧
      (∀ row col, SpriteCovers s x y n row col → t.disp.pixel row col = !s.disp.pixel row col) ∧
      ((∃ row col, SpriteCovers s x y n row col ∧ s.disp.pixel row col = true) → t.getV 0xF = 1) ∧
      ((∀ row col, SpriteCovers s x y n row col → s.disp.pixel row col = false) → t.getV 0xF = 0) ∧
      ChangesOnly (fun e => e = .v 0xF ∨ ∃ row col, SpriteCovers s x y n row col ∧ e = .pixel row col) s t) ∧
    (∀ s : State, n ≠ 0 → 0xFFF < s.i.toNat + n.toNat - 1 → ∃ t, exec (.draw x y n) s = .next t ∧
      Raised (.draw x y n) .memReadOutOfRange (max s.i.toNat 0x1000) s t)

/-- Drawing the same sprite twice at the same place, by registers other than VF, restores the display (R292, and so says
R293 (f)). The second draw collides exactly where a covered pixel was off before the first: this clause follows R292's
pseudocode and its "else 0". R293 (f) sets VF = 1 on the second draw whatever the display held, which R292 does not give over
a display lit under the whole sprite; to follow R292 there, against R293 (f), is the model's choice (log 20). -/
def Obligations.DrawTwiceRestoresTheDisplay : Prop :=
  ∀ (x y n : Nibble) (s t : State), x ≠ 0xF → y ≠ 0xF → n = 0 ∨ s.i.toNat + n.toNat - 1 ≤ 0xFFF →
    exec (.draw x y n) s = .next t →
    ∃ u, exec (.draw x y n) t = .next u ∧ u.disp = s.disp ∧
      (u.getV 0xF = 1 ↔ ∃ row col, SpriteCovers s x y n row col ∧ s.disp.pixel row col = false)

/-! ## Timers, keys and the host -/

/-- R326, R328, R329: GetDelay copies DT into V[x], SetDelay copies V[x] into DT, SetSound copies V[x] into ST and turns
sound_active on or off with it; each changes nothing else. -/
def Obligations.TimerInstructionsCopy : Prop :=
  ∀ x : Nibble,
    (decode (wordXNN 0xF x 0x07) = some (.getDelay x) ∧ decode (wordXNN 0xF x 0x15) = some (.setDelay x) ∧
      decode (wordXNN 0xF x 0x18) = some (.setSound x)) ∧
    ∀ s : State,
      (∃ t, exec (.getDelay x) s = .next t ∧ t.getV x = s.dt ∧ ChangesOnlyIn [.v x] s t) ∧
      (∃ t, exec (.setDelay x) s = .next t ∧ t.dt = s.getV x ∧ ChangesOnlyIn [.dt] s t) ∧
      (∃ t, exec (.setSound x) s = .next t ∧ t.st = s.getV x ∧
        (t.soundActive = true ↔ s.getV x ≠ 0) ∧ ChangesOnlyIn [.st] s t)

/-- R324, R325: with V[x] at most 15 the key skips test bit V[x] of KEYS, for every KEYS, add 2 to PC where the key is
down (SkipIfKeyDown) or up (SkipIfKeyUp), and change nothing else; with V[x] above 15 they fault with KEY_OUT_OF_RANGE.
The fault is the spec's decision D25. -/
def Obligations.KeySkipsTestTheKey : Prop :=
  ∀ x : Nibble,
    (decode (wordXNN 0xE x 0x9E) = some (.skipIfKeyDown x) ∧ decode (wordXNN 0xE x 0xA1) = some (.skipIfKeyUp x)) ∧
    (∀ s : State, (s.getV x).toNat ≤ 15 →
      (∃ t, exec (.skipIfKeyDown x) s = .next t ∧
        t.pc = (if s.host.keys.getLsbD (s.getV x).toNat then s.pc + 2 else s.pc) ∧ ChangesOnlyIn [.pc] s t) ∧
      (∃ t, exec (.skipIfKeyUp x) s = .next t ∧
        t.pc = (if s.host.keys.getLsbD (s.getV x).toNat then s.pc else s.pc + 2) ∧ ChangesOnlyIn [.pc] s t)) ∧
    (∀ s : State, 15 < (s.getV x).toNat →
      (∃ t, exec (.skipIfKeyDown x) s = .next t ∧ Raised (.skipIfKeyDown x) .keyOutOfRange (s.getV x).toNat s t) ∧
      (∃ t, exec (.skipIfKeyUp x) s = .next t ∧ Raised (.skipIfKeyUp x) .keyOutOfRange (s.getV x).toNat s t))

/-- R327: WaitKey sets the run state to AWAITING_KEY(x) and changes nothing else; KEYS is not consulted. -/
def Obligations.WaitKeySuspends : Prop :=
  ∀ x : Nibble, decode (wordXNN 0xF x 0x0A) = some (.waitKey x) ∧
    ∀ s : State, ∃ t, exec (.waitKey x) s = .next t ∧ t.runstate = .awaitingKey x ∧ ChangesOnlyIn [.runstate] s t

/-- R330: a key event completes a pending wait, writing the key number into the pending register and resuming; in
RUNNING and FAULTED it changes nothing. That an event is dropped and not queued is the spec's decision D26. -/
def Obligations.KeyEventCompletesTheWait : Prop :=
  ∀ (s : State) (k : Nibble),
    (∀ x, s.runstate = .awaitingKey x → ∃ t, s.transact (.deliverKeyEvent k) = .next t ∧
      (t.getV x).toNat = k.toNat ∧ t.runstate = .running ∧ ChangesOnlyIn [.v x, .runstate] s t) ∧
    (s.runstate = .running ∨ s.runstate = .faulted → s.transact (.deliverKeyEvent k) = .next s)

/-- R373: AWAITING_KEY is entered only by a WaitKey and left only by a key event or reset. -/
def Obligations.WaitIsEnteredAndLeftAsStated : Prop :=
  (∀ (s t : State) (x : Nibble) (r : Request), s.runstate = .awaitingKey x → s.transact r = .next t →
    t.runstate ≠ .awaitingKey x → r = .reset ∨ ∃ k, r = .deliverKeyEvent k) ∧
  (∀ (s t : State) (x : Nibble) (r : Request), (∀ z, s.runstate ≠ .awaitingKey z) → s.transact r = .next t →
    t.runstate = .awaitingKey x → (∃ keys rand8, r = .step keys rand8) ∧ decode s.fetchWord = some (.waitKey x))

/-- R321, R322: a tick takes 1 from each timer that is not 0 and changes nothing else, in every run state; sound_active is
ST ≠ 0. -/
def Obligations.TickDecrementsTheTimers : Prop :=
  ∀ s : State, (s.soundActive = true ↔ s.st ≠ 0) ∧ ∃ t, s.transact .tickTimers = .next t ∧
    t.dt.toNat = s.dt.toNat - 1 ∧ t.st.toNat = s.st.toNat - 1 ∧ ChangesOnlyIn [.dt, .st] s t

/-- R400: reset sets every state element to its reset value, in every run state: registers, I, SP, slots, timers and
pixels 0, PC 0x200, RUNNING with no fault, and memory 0x00 but FONT at 0x050..0x09F. The zero bytes outside the font are
the spec's decisions D28 and D38. -/
def Obligations.ResetSetsEveryElement : Prop :=
  ∀ s : State, ∃ t, s.transact .reset = .next t ∧
    (∀ x, t.getV x = 0) ∧ t.pc = 0x200 ∧ t.i = 0 ∧ t.sp = 0 ∧ (∀ k, t.stack.get k = 0) ∧ t.dt = 0 ∧ t.st = 0 ∧
    (∀ row col, t.disp.pixel row col = false) ∧ t.runstate = .running ∧ t.fault = none ∧
    (∀ k : Fin 80, t.readByte (0x050 + k.val) = s.config.font.get k) ∧
    (∀ a, a < 0x050 ∨ 0x09F < a → t.readByte a = 0)

/-- R403: load_rom of at most 3584 bytes writes them from 0x200 upward and returns OK, a longer one changes nothing and
returns REJECTED; no other byte and no other state changes, in every run state. That a load is permitted in every run
state is the spec's decision D30. -/
def Obligations.LoadRomWritesOrRejects : Prop :=
  ∀ (s : State) (bytes : List Byte),
    (bytes.length ≤ 3584 → s.reply (.loadRom bytes) = .next (.load .ok) ∧
      ∃ t, s.transact (.loadRom bytes) = .next t ∧
        (∀ k (h : k < bytes.length), t.readByte (0x200 + k) = bytes[k]) ∧
        ChangesOnly (fun e => ∃ k < bytes.length, e = .byte (0x200 + k)) s t) ∧
    (3584 < bytes.length →
      s.reply (.loadRom bytes) = .next (.load .rejected) ∧ s.transact (.loadRom bytes) = .next s)

/-- The machine serves the host's scheduled transactions one at a time, in their order, and beyond the schedule steps with
free inputs (the model's form of R407; log 3 and 4). -/
def Obligations.StepServesTheHostInOrder : Prop :=
  (∀ (s : State) (r : Request) (rest : List Request), s.host.requests = r :: rest →
    step s = ({ s with host := { s.host with requests := rest } } : State).transact r) ∧
  (∀ s : State, s.host.requests = [] →
    step s = ({ s with host := { s.host with draws := s.host.draws + 1 } } : State).transact
      (.step (Config.freeKeys s.host.draws) (Config.freeRand8 s.host.draws)))

/-- A word placed by `withFetchWord` is what the very next step fetches and what the host's decoder reads, and nothing else
of the block changes but the run state, which is RUNNING with no fault (the model's own interface to a program; log 6). -/
def Obligations.PlacedWordIsFetchedNext : Prop :=
  ∀ (s : State) (w : Nat), s.pc.toNat + 1 ≤ 0xFFF →
    (s.withFetchWord 16 w).nextRequest = .step s.host.keys s.host.rand8 ∧
    (s.withFetchWord 16 w).runstate = .running ∧ (s.withFetchWord 16 w).fault = none ∧
    (s.withFetchWord 16 w).fetchWord = BitVec.ofNat 16 w ∧
    decodeTableWord 16 w = decode (BitVec.ofNat 16 w) ∧
    ChangesOnlyIn [.byte s.pc.toNat, .byte (s.pc.toNat + 1), .runstate, .fault, .host] s (s.withFetchWord 16 w)
end

