-- ==== Sys2Proof/Laws/Decode.lean ====
section
/-! SUPPORT. The fields of the encoder's word shapes (R111), and the words that decode to no instruction. -/

namespace Sys2Proof

section Fields

variable (l x y n : Nibble) (nn : Byte) (nnn : Addr12)

theorem wordNNN_toNat : (wordNNN l nnn).toNat = l.toNat * 4096 + nnn.toNat := by
  have := nnn.isLt
  show (l ++ nnn).toNat = _
  rw [BitVec.toNat_append, ← Nat.shiftLeft_add_eq_or_of_lt this, Nat.shiftLeft_eq]

theorem wordXNN_toNat : (wordXNN l x nn).toNat = l.toNat * 4096 + x.toNat * 256 + nn.toNat := by
  have := nn.isLt
  have := x.isLt
  show (l ++ x ++ nn).toNat = _
  rw [BitVec.toNat_append, ← Nat.shiftLeft_add_eq_or_of_lt (by omega), BitVec.toNat_append,
    ← Nat.shiftLeft_add_eq_or_of_lt (by omega), Nat.shiftLeft_eq, Nat.shiftLeft_eq]
  omega

theorem wordXYN_toNat :
    (wordXYN l x y n).toNat = l.toNat * 4096 + x.toNat * 256 + y.toNat * 16 + n.toNat := by
  have := n.isLt
  have := y.isLt
  have := x.isLt
  show (l ++ x ++ y ++ n).toNat = _
  rw [BitVec.toNat_append, ← Nat.shiftLeft_add_eq_or_of_lt (by omega), BitVec.toNat_append,
    ← Nat.shiftLeft_add_eq_or_of_lt (by omega), BitVec.toNat_append,
    ← Nat.shiftLeft_add_eq_or_of_lt (by omega), Nat.shiftLeft_eq, Nat.shiftLeft_eq, Nat.shiftLeft_eq]
  omega

theorem leadOf_toNat (w : Word) : (leadOf w).toNat = w.toNat / 4096 := by
  have := w.isLt
  simp only [leadOf, BitVec.extractLsb'_toNat, Nat.shiftRight_eq_div_pow]
  omega

theorem xOf_toNat (w : Word) : (xOf w).toNat = w.toNat / 256 % 16 := by
  simp only [xOf, BitVec.extractLsb'_toNat, Nat.shiftRight_eq_div_pow]

theorem yOf_toNat (w : Word) : (yOf w).toNat = w.toNat / 16 % 16 := by
  simp only [yOf, BitVec.extractLsb'_toNat, Nat.shiftRight_eq_div_pow]

theorem nOf_toNat (w : Word) : (nOf w).toNat = w.toNat % 16 := by
  simp [nOf, BitVec.extractLsb'_toNat]

theorem nnOf_toNat (w : Word) : (nnOf w).toNat = w.toNat % 256 := by
  simp [nnOf, BitVec.extractLsb'_toNat]

theorem nnnOf_toNat (w : Word) : (nnnOf w).toNat = w.toNat % 4096 := by
  simp [nnnOf, BitVec.extractLsb'_toNat]

@[simp] theorem leadOf_wordNNN : leadOf (wordNNN l nnn) = l := by
  have := nnn.isLt
  apply BitVec.eq_of_toNat_eq; rw [leadOf_toNat, wordNNN_toNat]; omega
@[simp] theorem nnnOf_wordNNN : nnnOf (wordNNN l nnn) = nnn := by
  have := nnn.isLt
  apply BitVec.eq_of_toNat_eq; rw [nnnOf_toNat, wordNNN_toNat]; omega
@[simp] theorem leadOf_wordXNN : leadOf (wordXNN l x nn) = l := by
  have := nn.isLt
  have := x.isLt
  apply BitVec.eq_of_toNat_eq; rw [leadOf_toNat, wordXNN_toNat]; omega
@[simp] theorem xOf_wordXNN : xOf (wordXNN l x nn) = x := by
  have := nn.isLt
  have := x.isLt
  apply BitVec.eq_of_toNat_eq; rw [xOf_toNat, wordXNN_toNat]; omega
@[simp] theorem nnOf_wordXNN : nnOf (wordXNN l x nn) = nn := by
  have := nn.isLt
  apply BitVec.eq_of_toNat_eq; rw [nnOf_toNat, wordXNN_toNat]; omega
@[simp] theorem leadOf_wordXYN : leadOf (wordXYN l x y n) = l := by
  have := n.isLt
  have := y.isLt
  have := x.isLt
  apply BitVec.eq_of_toNat_eq; rw [leadOf_toNat, wordXYN_toNat]; omega
@[simp] theorem xOf_wordXYN : xOf (wordXYN l x y n) = x := by
  have := n.isLt
  have := y.isLt
  have := x.isLt
  apply BitVec.eq_of_toNat_eq; rw [xOf_toNat, wordXYN_toNat]; omega
@[simp] theorem yOf_wordXYN : yOf (wordXYN l x y n) = y := by
  have := n.isLt
  have := y.isLt
  apply BitVec.eq_of_toNat_eq; rw [yOf_toNat, wordXYN_toNat]; omega
@[simp] theorem nOf_wordXYN : nOf (wordXYN l x y n) = n := by
  have := n.isLt
  apply BitVec.eq_of_toNat_eq; rw [nOf_toNat, wordXYN_toNat]; omega

/-- A word is its leading nibble and nnn. -/
theorem wordNNN_fields (w : Word) : wordNNN (leadOf w) (nnnOf w) = w := by
  apply BitVec.eq_of_toNat_eq; rw [wordNNN_toNat, leadOf_toNat, nnnOf_toNat]; omega

/-- A word is its leading nibble, x and nn. -/
theorem wordXNN_fields (w : Word) : wordXNN (leadOf w) (xOf w) (nnOf w) = w := by
  apply BitVec.eq_of_toNat_eq; rw [wordXNN_toNat, leadOf_toNat, xOf_toNat, nnOf_toNat]; omega

/-- A word is its four nibbles (R110). -/
theorem wordXYN_fields (w : Word) : wordXYN (leadOf w) (xOf w) (yOf w) (nOf w) = w := by
  apply BitVec.eq_of_toNat_eq; rw [wordXYN_toNat, leadOf_toNat, xOf_toNat, yOf_toNat, nOf_toNat]; omega

end Fields

/-- A record names no instruction exactly where its tag is Undefined. -/
theorem toInstr_eq_none_iff (r : InstrRecord) : r.toInstr = none ↔ r.tag = .undefined := by
  obtain ⟨tag, x, y, n, nn, nnn⟩ := r
  cases tag <;> simp [InstrRecord.toInstr]

/-- A word decodes to no instruction exactly where its tag is Undefined. -/
theorem decode_eq_none_iff (w : Word) : decode w = none ↔ decodeTag w = .undefined := toInstr_eq_none_iff _

/-- The tag of the instruction a record names is the record's tag. -/
theorem tag_of_toInstr {r : InstrRecord} {i : Instr} (h : r.toInstr = some i) : i.tag = r.tag := by
  obtain ⟨tag, x, y, n, nn, nnn⟩ := r
  cases tag <;> cases h <;> rfl

/-- The tag of a decoded instruction is the decoder's tag (R153). -/
theorem tag_of_decode {w : Word} {i : Instr} (h : decode w = some i) : i.tag = decodeTag w := tag_of_toInstr h

/-- The bytes of a word make the word again (R83). -/
@[simp] theorem wordOfBytes_bytesOfWord (w : Word) : wordOfBytes (bytesOfWord w).1 (bytesOfWord w).2 = w := by
  apply BitVec.eq_of_toNat_eq
  have := w.isLt
  show ((bytesOfWord w).1 ++ (bytesOfWord w).2).toNat = _
  rw [BitVec.toNat_append, ← Nat.shiftLeft_add_eq_or_of_lt (BitVec.isLt _)]
  simp only [bytesOfWord, BitVec.extractLsb'_toNat, Nat.shiftRight_eq_div_pow, Nat.shiftLeft_eq]
  omega

end Sys2Proof
end

