-- ==== Sys2Proof/Laws/State.lean ====
section
/-! SUPPORT. What each named update of the state does to each field (GOOD_PV_LEAN section 3), so that no proof unfolds a record update. -/

namespace Sys2Proof.Machine

variable (s : State)

/-! ## `writeByte` -/

@[simp] theorem State.writeByte_v (a : Nat) (b : Byte) : (s.writeByte a b).v = s.v := rfl
@[simp] theorem State.writeByte_pc (a : Nat) (b : Byte) : (s.writeByte a b).pc = s.pc := rfl
@[simp] theorem State.writeByte_i (a : Nat) (b : Byte) : (s.writeByte a b).i = s.i := rfl
@[simp] theorem State.writeByte_stack (a : Nat) (b : Byte) : (s.writeByte a b).stack = s.stack := rfl
@[simp] theorem State.writeByte_sp (a : Nat) (b : Byte) : (s.writeByte a b).sp = s.sp := rfl
@[simp] theorem State.writeByte_dt (a : Nat) (b : Byte) : (s.writeByte a b).dt = s.dt := rfl
@[simp] theorem State.writeByte_st (a : Nat) (b : Byte) : (s.writeByte a b).st = s.st := rfl
@[simp] theorem State.writeByte_disp (a : Nat) (b : Byte) : (s.writeByte a b).disp = s.disp := rfl
@[simp] theorem State.writeByte_runstate (a : Nat) (b : Byte) : (s.writeByte a b).runstate = s.runstate := rfl
@[simp] theorem State.writeByte_fault (a : Nat) (b : Byte) : (s.writeByte a b).fault = s.fault := rfl
@[simp] theorem State.writeByte_mem (a : Nat) (b : Byte) : (s.writeByte a b).mem = Memory.write s.config.font s.mem a b := rfl
@[simp] theorem State.writeByte_config (a : Nat) (b : Byte) : (s.writeByte a b).config = s.config := rfl
@[simp] theorem State.writeByte_host (a : Nat) (b : Byte) : (s.writeByte a b).host = s.host := rfl
@[simp] theorem State.writeByte_getV (a : Nat) (b : Byte) (z : Nibble) : (s.writeByte a b).getV z = s.getV z := by simp [State.getV]

/-! ## `writeBytes` -/

@[simp] theorem State.writeBytes_v (a : Nat) (bs : List Byte) : (s.writeBytes a bs).v = s.v := rfl
@[simp] theorem State.writeBytes_pc (a : Nat) (bs : List Byte) : (s.writeBytes a bs).pc = s.pc := rfl
@[simp] theorem State.writeBytes_i (a : Nat) (bs : List Byte) : (s.writeBytes a bs).i = s.i := rfl
@[simp] theorem State.writeBytes_stack (a : Nat) (bs : List Byte) : (s.writeBytes a bs).stack = s.stack := rfl
@[simp] theorem State.writeBytes_sp (a : Nat) (bs : List Byte) : (s.writeBytes a bs).sp = s.sp := rfl
@[simp] theorem State.writeBytes_dt (a : Nat) (bs : List Byte) : (s.writeBytes a bs).dt = s.dt := rfl
@[simp] theorem State.writeBytes_st (a : Nat) (bs : List Byte) : (s.writeBytes a bs).st = s.st := rfl
@[simp] theorem State.writeBytes_disp (a : Nat) (bs : List Byte) : (s.writeBytes a bs).disp = s.disp := rfl
@[simp] theorem State.writeBytes_runstate (a : Nat) (bs : List Byte) : (s.writeBytes a bs).runstate = s.runstate := rfl
@[simp] theorem State.writeBytes_fault (a : Nat) (bs : List Byte) : (s.writeBytes a bs).fault = s.fault := rfl
@[simp] theorem State.writeBytes_mem (a : Nat) (bs : List Byte) : (s.writeBytes a bs).mem = Memory.writeBlock s.config.font s.mem a bs := rfl
@[simp] theorem State.writeBytes_config (a : Nat) (bs : List Byte) : (s.writeBytes a bs).config = s.config := rfl
@[simp] theorem State.writeBytes_host (a : Nat) (bs : List Byte) : (s.writeBytes a bs).host = s.host := rfl
@[simp] theorem State.writeBytes_getV (a : Nat) (bs : List Byte) (z : Nibble) : (s.writeBytes a bs).getV z = s.getV z := by simp [State.getV]

/-! ## `setV` -/

@[simp] theorem State.setV_v (x : Nibble) (b : Byte) : (s.setV x b).v = s.v.set x.toNat b x.isLt := rfl
@[simp] theorem State.setV_pc (x : Nibble) (b : Byte) : (s.setV x b).pc = s.pc := rfl
@[simp] theorem State.setV_i (x : Nibble) (b : Byte) : (s.setV x b).i = s.i := rfl
@[simp] theorem State.setV_stack (x : Nibble) (b : Byte) : (s.setV x b).stack = s.stack := rfl
@[simp] theorem State.setV_sp (x : Nibble) (b : Byte) : (s.setV x b).sp = s.sp := rfl
@[simp] theorem State.setV_dt (x : Nibble) (b : Byte) : (s.setV x b).dt = s.dt := rfl
@[simp] theorem State.setV_st (x : Nibble) (b : Byte) : (s.setV x b).st = s.st := rfl
@[simp] theorem State.setV_disp (x : Nibble) (b : Byte) : (s.setV x b).disp = s.disp := rfl
@[simp] theorem State.setV_runstate (x : Nibble) (b : Byte) : (s.setV x b).runstate = s.runstate := rfl
@[simp] theorem State.setV_fault (x : Nibble) (b : Byte) : (s.setV x b).fault = s.fault := rfl
@[simp] theorem State.setV_mem (x : Nibble) (b : Byte) : (s.setV x b).mem = s.mem := rfl
@[simp] theorem State.setV_config (x : Nibble) (b : Byte) : (s.setV x b).config = s.config := rfl
@[simp] theorem State.setV_host (x : Nibble) (b : Byte) : (s.setV x b).host = s.host := rfl
@[simp] theorem State.setV_readByte (x : Nibble) (b : Byte) (z : Nat) : (s.setV x b).readByte z = s.readByte z := by simp [State.readByte]

/-! ## `setPc` -/

@[simp] theorem State.setPc_v (a : Word) : (s.setPc a).v = s.v := rfl
@[simp] theorem State.setPc_pc (a : Word) : (s.setPc a).pc = a := rfl
@[simp] theorem State.setPc_i (a : Word) : (s.setPc a).i = s.i := rfl
@[simp] theorem State.setPc_stack (a : Word) : (s.setPc a).stack = s.stack := rfl
@[simp] theorem State.setPc_sp (a : Word) : (s.setPc a).sp = s.sp := rfl
@[simp] theorem State.setPc_dt (a : Word) : (s.setPc a).dt = s.dt := rfl
@[simp] theorem State.setPc_st (a : Word) : (s.setPc a).st = s.st := rfl
@[simp] theorem State.setPc_disp (a : Word) : (s.setPc a).disp = s.disp := rfl
@[simp] theorem State.setPc_runstate (a : Word) : (s.setPc a).runstate = s.runstate := rfl
@[simp] theorem State.setPc_fault (a : Word) : (s.setPc a).fault = s.fault := rfl
@[simp] theorem State.setPc_mem (a : Word) : (s.setPc a).mem = s.mem := rfl
@[simp] theorem State.setPc_config (a : Word) : (s.setPc a).config = s.config := rfl
@[simp] theorem State.setPc_host (a : Word) : (s.setPc a).host = s.host := rfl
@[simp] theorem State.setPc_getV (a : Word) (z : Nibble) : (s.setPc a).getV z = s.getV z := by simp [State.getV]
@[simp] theorem State.setPc_readByte (a : Word) (z : Nat) : (s.setPc a).readByte z = s.readByte z := by simp [State.readByte]

/-! ## `advancePc` -/

@[simp] theorem State.advancePc_v : (s.advancePc).v = s.v := rfl
@[simp] theorem State.advancePc_pc : (s.advancePc).pc = s.pc + 2 := rfl
@[simp] theorem State.advancePc_i : (s.advancePc).i = s.i := rfl
@[simp] theorem State.advancePc_stack : (s.advancePc).stack = s.stack := rfl
@[simp] theorem State.advancePc_sp : (s.advancePc).sp = s.sp := rfl
@[simp] theorem State.advancePc_dt : (s.advancePc).dt = s.dt := rfl
@[simp] theorem State.advancePc_st : (s.advancePc).st = s.st := rfl
@[simp] theorem State.advancePc_disp : (s.advancePc).disp = s.disp := rfl
@[simp] theorem State.advancePc_runstate : (s.advancePc).runstate = s.runstate := rfl
@[simp] theorem State.advancePc_fault : (s.advancePc).fault = s.fault := rfl
@[simp] theorem State.advancePc_mem : (s.advancePc).mem = s.mem := rfl
@[simp] theorem State.advancePc_config : (s.advancePc).config = s.config := rfl
@[simp] theorem State.advancePc_host : (s.advancePc).host = s.host := rfl
@[simp] theorem State.advancePc_getV (z : Nibble) : (s.advancePc).getV z = s.getV z := by simp [State.getV]
@[simp] theorem State.advancePc_readByte (z : Nat) : (s.advancePc).readByte z = s.readByte z := by simp [State.readByte]

/-! ## `setI` -/

@[simp] theorem State.setI_v (a : Word) : (s.setI a).v = s.v := rfl
@[simp] theorem State.setI_pc (a : Word) : (s.setI a).pc = s.pc := rfl
@[simp] theorem State.setI_i (a : Word) : (s.setI a).i = a := rfl
@[simp] theorem State.setI_stack (a : Word) : (s.setI a).stack = s.stack := rfl
@[simp] theorem State.setI_sp (a : Word) : (s.setI a).sp = s.sp := rfl
@[simp] theorem State.setI_dt (a : Word) : (s.setI a).dt = s.dt := rfl
@[simp] theorem State.setI_st (a : Word) : (s.setI a).st = s.st := rfl
@[simp] theorem State.setI_disp (a : Word) : (s.setI a).disp = s.disp := rfl
@[simp] theorem State.setI_runstate (a : Word) : (s.setI a).runstate = s.runstate := rfl
@[simp] theorem State.setI_fault (a : Word) : (s.setI a).fault = s.fault := rfl
@[simp] theorem State.setI_mem (a : Word) : (s.setI a).mem = s.mem := rfl
@[simp] theorem State.setI_config (a : Word) : (s.setI a).config = s.config := rfl
@[simp] theorem State.setI_host (a : Word) : (s.setI a).host = s.host := rfl
@[simp] theorem State.setI_getV (a : Word) (z : Nibble) : (s.setI a).getV z = s.getV z := by simp [State.getV]
@[simp] theorem State.setI_readByte (a : Word) (z : Nat) : (s.setI a).readByte z = s.readByte z := by simp [State.readByte]

/-! ## `setDt` -/

@[simp] theorem State.setDt_v (b : Byte) : (s.setDt b).v = s.v := rfl
@[simp] theorem State.setDt_pc (b : Byte) : (s.setDt b).pc = s.pc := rfl
@[simp] theorem State.setDt_i (b : Byte) : (s.setDt b).i = s.i := rfl
@[simp] theorem State.setDt_stack (b : Byte) : (s.setDt b).stack = s.stack := rfl
@[simp] theorem State.setDt_sp (b : Byte) : (s.setDt b).sp = s.sp := rfl
@[simp] theorem State.setDt_dt (b : Byte) : (s.setDt b).dt = b := rfl
@[simp] theorem State.setDt_st (b : Byte) : (s.setDt b).st = s.st := rfl
@[simp] theorem State.setDt_disp (b : Byte) : (s.setDt b).disp = s.disp := rfl
@[simp] theorem State.setDt_runstate (b : Byte) : (s.setDt b).runstate = s.runstate := rfl
@[simp] theorem State.setDt_fault (b : Byte) : (s.setDt b).fault = s.fault := rfl
@[simp] theorem State.setDt_mem (b : Byte) : (s.setDt b).mem = s.mem := rfl
@[simp] theorem State.setDt_config (b : Byte) : (s.setDt b).config = s.config := rfl
@[simp] theorem State.setDt_host (b : Byte) : (s.setDt b).host = s.host := rfl
@[simp] theorem State.setDt_getV (b : Byte) (z : Nibble) : (s.setDt b).getV z = s.getV z := by simp [State.getV]
@[simp] theorem State.setDt_readByte (b : Byte) (z : Nat) : (s.setDt b).readByte z = s.readByte z := by simp [State.readByte]

/-! ## `setSt` -/

@[simp] theorem State.setSt_v (b : Byte) : (s.setSt b).v = s.v := rfl
@[simp] theorem State.setSt_pc (b : Byte) : (s.setSt b).pc = s.pc := rfl
@[simp] theorem State.setSt_i (b : Byte) : (s.setSt b).i = s.i := rfl
@[simp] theorem State.setSt_stack (b : Byte) : (s.setSt b).stack = s.stack := rfl
@[simp] theorem State.setSt_sp (b : Byte) : (s.setSt b).sp = s.sp := rfl
@[simp] theorem State.setSt_dt (b : Byte) : (s.setSt b).dt = s.dt := rfl
@[simp] theorem State.setSt_st (b : Byte) : (s.setSt b).st = b := rfl
@[simp] theorem State.setSt_disp (b : Byte) : (s.setSt b).disp = s.disp := rfl
@[simp] theorem State.setSt_runstate (b : Byte) : (s.setSt b).runstate = s.runstate := rfl
@[simp] theorem State.setSt_fault (b : Byte) : (s.setSt b).fault = s.fault := rfl
@[simp] theorem State.setSt_mem (b : Byte) : (s.setSt b).mem = s.mem := rfl
@[simp] theorem State.setSt_config (b : Byte) : (s.setSt b).config = s.config := rfl
@[simp] theorem State.setSt_host (b : Byte) : (s.setSt b).host = s.host := rfl
@[simp] theorem State.setSt_getV (b : Byte) (z : Nibble) : (s.setSt b).getV z = s.getV z := by simp [State.getV]
@[simp] theorem State.setSt_readByte (b : Byte) (z : Nat) : (s.setSt b).readByte z = s.readByte z := by simp [State.readByte]

/-! ## `setRunstate` -/

@[simp] theorem State.setRunstate_v (r : RunState) : (s.setRunstate r).v = s.v := rfl
@[simp] theorem State.setRunstate_pc (r : RunState) : (s.setRunstate r).pc = s.pc := rfl
@[simp] theorem State.setRunstate_i (r : RunState) : (s.setRunstate r).i = s.i := rfl
@[simp] theorem State.setRunstate_stack (r : RunState) : (s.setRunstate r).stack = s.stack := rfl
@[simp] theorem State.setRunstate_sp (r : RunState) : (s.setRunstate r).sp = s.sp := rfl
@[simp] theorem State.setRunstate_dt (r : RunState) : (s.setRunstate r).dt = s.dt := rfl
@[simp] theorem State.setRunstate_st (r : RunState) : (s.setRunstate r).st = s.st := rfl
@[simp] theorem State.setRunstate_disp (r : RunState) : (s.setRunstate r).disp = s.disp := rfl
@[simp] theorem State.setRunstate_runstate (r : RunState) : (s.setRunstate r).runstate = r := rfl
@[simp] theorem State.setRunstate_fault (r : RunState) : (s.setRunstate r).fault = s.fault := rfl
@[simp] theorem State.setRunstate_mem (r : RunState) : (s.setRunstate r).mem = s.mem := rfl
@[simp] theorem State.setRunstate_config (r : RunState) : (s.setRunstate r).config = s.config := rfl
@[simp] theorem State.setRunstate_host (r : RunState) : (s.setRunstate r).host = s.host := rfl
@[simp] theorem State.setRunstate_getV (r : RunState) (z : Nibble) : (s.setRunstate r).getV z = s.getV z := by simp [State.getV]
@[simp] theorem State.setRunstate_readByte (r : RunState) (z : Nat) : (s.setRunstate r).readByte z = s.readByte z := by simp [State.readByte]

/-! ## `push` -/

@[simp] theorem State.push_v (a : Word) (h : s.sp.val < 16) : (s.push a h).v = s.v := rfl
@[simp] theorem State.push_pc (a : Word) (h : s.sp.val < 16) : (s.push a h).pc = s.pc := rfl
@[simp] theorem State.push_i (a : Word) (h : s.sp.val < 16) : (s.push a h).i = s.i := rfl
@[simp] theorem State.push_stack (a : Word) (h : s.sp.val < 16) : (s.push a h).stack = s.stack.set s.sp.val a h := rfl
@[simp] theorem State.push_sp (a : Word) (h : s.sp.val < 16) : (s.push a h).sp = ⟨s.sp.val + 1, Nat.succ_lt_succ h⟩ := rfl
@[simp] theorem State.push_dt (a : Word) (h : s.sp.val < 16) : (s.push a h).dt = s.dt := rfl
@[simp] theorem State.push_st (a : Word) (h : s.sp.val < 16) : (s.push a h).st = s.st := rfl
@[simp] theorem State.push_disp (a : Word) (h : s.sp.val < 16) : (s.push a h).disp = s.disp := rfl
@[simp] theorem State.push_runstate (a : Word) (h : s.sp.val < 16) : (s.push a h).runstate = s.runstate := rfl
@[simp] theorem State.push_fault (a : Word) (h : s.sp.val < 16) : (s.push a h).fault = s.fault := rfl
@[simp] theorem State.push_mem (a : Word) (h : s.sp.val < 16) : (s.push a h).mem = s.mem := rfl
@[simp] theorem State.push_config (a : Word) (h : s.sp.val < 16) : (s.push a h).config = s.config := rfl
@[simp] theorem State.push_host (a : Word) (h : s.sp.val < 16) : (s.push a h).host = s.host := rfl
@[simp] theorem State.push_getV (a : Word) (h : s.sp.val < 16) (z : Nibble) : (s.push a h).getV z = s.getV z := by simp [State.getV]
@[simp] theorem State.push_readByte (a : Word) (h : s.sp.val < 16) (z : Nat) : (s.push a h).readByte z = s.readByte z := by simp [State.readByte]

/-! ## `popPc` -/

@[simp] theorem State.popPc_v : (s.popPc).v = s.v := rfl
@[simp] theorem State.popPc_i : (s.popPc).i = s.i := rfl
@[simp] theorem State.popPc_stack : (s.popPc).stack = s.stack := rfl
@[simp] theorem State.popPc_dt : (s.popPc).dt = s.dt := rfl
@[simp] theorem State.popPc_st : (s.popPc).st = s.st := rfl
@[simp] theorem State.popPc_disp : (s.popPc).disp = s.disp := rfl
@[simp] theorem State.popPc_runstate : (s.popPc).runstate = s.runstate := rfl
@[simp] theorem State.popPc_fault : (s.popPc).fault = s.fault := rfl
@[simp] theorem State.popPc_mem : (s.popPc).mem = s.mem := rfl
@[simp] theorem State.popPc_config : (s.popPc).config = s.config := rfl
@[simp] theorem State.popPc_host : (s.popPc).host = s.host := rfl
@[simp] theorem State.popPc_getV (z : Nibble) : (s.popPc).getV z = s.getV z := by simp [State.getV]
@[simp] theorem State.popPc_readByte (z : Nat) : (s.popPc).readByte z = s.readByte z := by simp [State.readByte]

/-! ## `setDisp` -/

@[simp] theorem State.setDisp_v (d : Display) : (s.setDisp d).v = s.v := rfl
@[simp] theorem State.setDisp_pc (d : Display) : (s.setDisp d).pc = s.pc := rfl
@[simp] theorem State.setDisp_i (d : Display) : (s.setDisp d).i = s.i := rfl
@[simp] theorem State.setDisp_stack (d : Display) : (s.setDisp d).stack = s.stack := rfl
@[simp] theorem State.setDisp_sp (d : Display) : (s.setDisp d).sp = s.sp := rfl
@[simp] theorem State.setDisp_dt (d : Display) : (s.setDisp d).dt = s.dt := rfl
@[simp] theorem State.setDisp_st (d : Display) : (s.setDisp d).st = s.st := rfl
@[simp] theorem State.setDisp_disp (d : Display) : (s.setDisp d).disp = d := rfl
@[simp] theorem State.setDisp_runstate (d : Display) : (s.setDisp d).runstate = s.runstate := rfl
@[simp] theorem State.setDisp_fault (d : Display) : (s.setDisp d).fault = s.fault := rfl
@[simp] theorem State.setDisp_mem (d : Display) : (s.setDisp d).mem = s.mem := rfl
@[simp] theorem State.setDisp_config (d : Display) : (s.setDisp d).config = s.config := rfl
@[simp] theorem State.setDisp_host (d : Display) : (s.setDisp d).host = s.host := rfl
@[simp] theorem State.setDisp_getV (d : Display) (z : Nibble) : (s.setDisp d).getV z = s.getV z := by simp [State.getV]
@[simp] theorem State.setDisp_readByte (d : Display) (z : Nat) : (s.setDisp d).readByte z = s.readByte z := by simp [State.readByte]

/-! ## `enterFault` -/

@[simp] theorem State.enterFault_v (c : FaultCause) (p w : Word) (n : Nat) : (s.enterFault c p w n).v = s.v := rfl
@[simp] theorem State.enterFault_pc (c : FaultCause) (p w : Word) (n : Nat) : (s.enterFault c p w n).pc = s.pc := rfl
@[simp] theorem State.enterFault_i (c : FaultCause) (p w : Word) (n : Nat) : (s.enterFault c p w n).i = s.i := rfl
@[simp] theorem State.enterFault_stack (c : FaultCause) (p w : Word) (n : Nat) : (s.enterFault c p w n).stack = s.stack := rfl
@[simp] theorem State.enterFault_sp (c : FaultCause) (p w : Word) (n : Nat) : (s.enterFault c p w n).sp = s.sp := rfl
@[simp] theorem State.enterFault_dt (c : FaultCause) (p w : Word) (n : Nat) : (s.enterFault c p w n).dt = s.dt := rfl
@[simp] theorem State.enterFault_st (c : FaultCause) (p w : Word) (n : Nat) : (s.enterFault c p w n).st = s.st := rfl
@[simp] theorem State.enterFault_disp (c : FaultCause) (p w : Word) (n : Nat) : (s.enterFault c p w n).disp = s.disp := rfl
@[simp] theorem State.enterFault_runstate (c : FaultCause) (p w : Word) (n : Nat) : (s.enterFault c p w n).runstate = .faulted := rfl
@[simp] theorem State.enterFault_fault (c : FaultCause) (p w : Word) (n : Nat) : (s.enterFault c p w n).fault = some ⟨c, p, w, BitVec.ofNat 17 n⟩ := rfl
@[simp] theorem State.enterFault_mem (c : FaultCause) (p w : Word) (n : Nat) : (s.enterFault c p w n).mem = s.mem := rfl
@[simp] theorem State.enterFault_config (c : FaultCause) (p w : Word) (n : Nat) : (s.enterFault c p w n).config = s.config := rfl
@[simp] theorem State.enterFault_host (c : FaultCause) (p w : Word) (n : Nat) : (s.enterFault c p w n).host = s.host := rfl
@[simp] theorem State.enterFault_getV (c : FaultCause) (p w : Word) (n : Nat) (z : Nibble) : (s.enterFault c p w n).getV z = s.getV z := by simp [State.getV]
@[simp] theorem State.enterFault_readByte (c : FaultCause) (p w : Word) (n : Nat) (z : Nat) : (s.enterFault c p w n).readByte z = s.readByte z := by simp [State.readByte]

/-! ## `raise` -/

@[simp] theorem State.raise_v (i : Instr) (c : FaultCause) (n : Nat) : (s.raise i c n).v = s.v := rfl
@[simp] theorem State.raise_pc (i : Instr) (c : FaultCause) (n : Nat) : (s.raise i c n).pc = s.pc := rfl
@[simp] theorem State.raise_i (i : Instr) (c : FaultCause) (n : Nat) : (s.raise i c n).i = s.i := rfl
@[simp] theorem State.raise_stack (i : Instr) (c : FaultCause) (n : Nat) : (s.raise i c n).stack = s.stack := rfl
@[simp] theorem State.raise_sp (i : Instr) (c : FaultCause) (n : Nat) : (s.raise i c n).sp = s.sp := rfl
@[simp] theorem State.raise_dt (i : Instr) (c : FaultCause) (n : Nat) : (s.raise i c n).dt = s.dt := rfl
@[simp] theorem State.raise_st (i : Instr) (c : FaultCause) (n : Nat) : (s.raise i c n).st = s.st := rfl
@[simp] theorem State.raise_disp (i : Instr) (c : FaultCause) (n : Nat) : (s.raise i c n).disp = s.disp := rfl
@[simp] theorem State.raise_runstate (i : Instr) (c : FaultCause) (n : Nat) : (s.raise i c n).runstate = .faulted := rfl
@[simp] theorem State.raise_fault (i : Instr) (c : FaultCause) (n : Nat) : (s.raise i c n).fault = some ⟨c, s.pc - 2, encode i, BitVec.ofNat 17 n⟩ := rfl
@[simp] theorem State.raise_mem (i : Instr) (c : FaultCause) (n : Nat) : (s.raise i c n).mem = s.mem := rfl
@[simp] theorem State.raise_config (i : Instr) (c : FaultCause) (n : Nat) : (s.raise i c n).config = s.config := rfl
@[simp] theorem State.raise_host (i : Instr) (c : FaultCause) (n : Nat) : (s.raise i c n).host = s.host := rfl
@[simp] theorem State.raise_getV (i : Instr) (c : FaultCause) (n : Nat) (z : Nibble) : (s.raise i c n).getV z = s.getV z := by simp [State.getV]
@[simp] theorem State.raise_readByte (i : Instr) (c : FaultCause) (n : Nat) (z : Nat) : (s.raise i c n).readByte z = s.readByte z := by simp [State.readByte]

/-! ## `sampleInputs` -/

@[simp] theorem State.sampleInputs_v (k : BitVec 16) (r : Byte) : (s.sampleInputs k r).v = s.v := rfl
@[simp] theorem State.sampleInputs_pc (k : BitVec 16) (r : Byte) : (s.sampleInputs k r).pc = s.pc := rfl
@[simp] theorem State.sampleInputs_i (k : BitVec 16) (r : Byte) : (s.sampleInputs k r).i = s.i := rfl
@[simp] theorem State.sampleInputs_stack (k : BitVec 16) (r : Byte) : (s.sampleInputs k r).stack = s.stack := rfl
@[simp] theorem State.sampleInputs_sp (k : BitVec 16) (r : Byte) : (s.sampleInputs k r).sp = s.sp := rfl
@[simp] theorem State.sampleInputs_dt (k : BitVec 16) (r : Byte) : (s.sampleInputs k r).dt = s.dt := rfl
@[simp] theorem State.sampleInputs_st (k : BitVec 16) (r : Byte) : (s.sampleInputs k r).st = s.st := rfl
@[simp] theorem State.sampleInputs_disp (k : BitVec 16) (r : Byte) : (s.sampleInputs k r).disp = s.disp := rfl
@[simp] theorem State.sampleInputs_runstate (k : BitVec 16) (r : Byte) : (s.sampleInputs k r).runstate = s.runstate := rfl
@[simp] theorem State.sampleInputs_fault (k : BitVec 16) (r : Byte) : (s.sampleInputs k r).fault = s.fault := rfl
@[simp] theorem State.sampleInputs_mem (k : BitVec 16) (r : Byte) : (s.sampleInputs k r).mem = s.mem := rfl
@[simp] theorem State.sampleInputs_config (k : BitVec 16) (r : Byte) : (s.sampleInputs k r).config = s.config := rfl
@[simp] theorem State.sampleInputs_host (k : BitVec 16) (r : Byte) : (s.sampleInputs k r).host = { s.host with keys := k, rand8 := r } := rfl
@[simp] theorem State.sampleInputs_getV (k : BitVec 16) (r : Byte) (z : Nibble) : (s.sampleInputs k r).getV z = s.getV z := by simp [State.getV]
@[simp] theorem State.sampleInputs_readByte (k : BitVec 16) (r : Byte) (z : Nat) : (s.sampleInputs k r).readByte z = s.readByte z := by simp [State.readByte]

/-! ## `takeRequest` -/

@[simp] theorem State.takeRequest_v : (s.takeRequest).v = s.v := by unfold State.takeRequest; split <;> rfl
@[simp] theorem State.takeRequest_pc : (s.takeRequest).pc = s.pc := by unfold State.takeRequest; split <;> rfl
@[simp] theorem State.takeRequest_i : (s.takeRequest).i = s.i := by unfold State.takeRequest; split <;> rfl
@[simp] theorem State.takeRequest_stack : (s.takeRequest).stack = s.stack := by unfold State.takeRequest; split <;> rfl
@[simp] theorem State.takeRequest_sp : (s.takeRequest).sp = s.sp := by unfold State.takeRequest; split <;> rfl
@[simp] theorem State.takeRequest_dt : (s.takeRequest).dt = s.dt := by unfold State.takeRequest; split <;> rfl
@[simp] theorem State.takeRequest_st : (s.takeRequest).st = s.st := by unfold State.takeRequest; split <;> rfl
@[simp] theorem State.takeRequest_disp : (s.takeRequest).disp = s.disp := by unfold State.takeRequest; split <;> rfl
@[simp] theorem State.takeRequest_runstate : (s.takeRequest).runstate = s.runstate := by unfold State.takeRequest; split <;> rfl
@[simp] theorem State.takeRequest_fault : (s.takeRequest).fault = s.fault := by unfold State.takeRequest; split <;> rfl
@[simp] theorem State.takeRequest_mem : (s.takeRequest).mem = s.mem := by unfold State.takeRequest; split <;> rfl
@[simp] theorem State.takeRequest_config : (s.takeRequest).config = s.config := by unfold State.takeRequest; split <;> rfl
@[simp] theorem State.takeRequest_getV (z : Nibble) : (s.takeRequest).getV z = s.getV z := by simp [State.getV]
@[simp] theorem State.takeRequest_readByte (z : Nat) : (s.takeRequest).readByte z = s.readByte z := by simp [State.readByte]

/-! ## `skipIf` -/

@[simp] theorem State.skipIf_v (c : Bool) : (s.skipIf c).v = s.v := by cases c <;> rfl
@[simp] theorem State.skipIf_pc (c : Bool) : (s.skipIf c).pc = if c then s.pc + 2 else s.pc := by cases c <;> rfl
@[simp] theorem State.skipIf_i (c : Bool) : (s.skipIf c).i = s.i := by cases c <;> rfl
@[simp] theorem State.skipIf_stack (c : Bool) : (s.skipIf c).stack = s.stack := by cases c <;> rfl
@[simp] theorem State.skipIf_sp (c : Bool) : (s.skipIf c).sp = s.sp := by cases c <;> rfl
@[simp] theorem State.skipIf_dt (c : Bool) : (s.skipIf c).dt = s.dt := by cases c <;> rfl
@[simp] theorem State.skipIf_st (c : Bool) : (s.skipIf c).st = s.st := by cases c <;> rfl
@[simp] theorem State.skipIf_disp (c : Bool) : (s.skipIf c).disp = s.disp := by cases c <;> rfl
@[simp] theorem State.skipIf_runstate (c : Bool) : (s.skipIf c).runstate = s.runstate := by cases c <;> rfl
@[simp] theorem State.skipIf_fault (c : Bool) : (s.skipIf c).fault = s.fault := by cases c <;> rfl
@[simp] theorem State.skipIf_mem (c : Bool) : (s.skipIf c).mem = s.mem := by cases c <;> rfl
@[simp] theorem State.skipIf_config (c : Bool) : (s.skipIf c).config = s.config := by cases c <;> rfl
@[simp] theorem State.skipIf_host (c : Bool) : (s.skipIf c).host = s.host := by cases c <;> rfl
@[simp] theorem State.skipIf_getV (c : Bool) (z : Nibble) : (s.skipIf c).getV z = s.getV z := by simp [State.getV]
@[simp] theorem State.skipIf_readByte (c : Bool) (z : Nat) : (s.skipIf c).readByte z = s.readByte z := by simp [State.readByte]

/-! ## `writeAlu` -/

@[simp] theorem State.writeAlu_pc (x : Nibble) (o : AluOut) : (s.writeAlu x o).pc = s.pc := by unfold State.writeAlu; split <;> rfl
@[simp] theorem State.writeAlu_i (x : Nibble) (o : AluOut) : (s.writeAlu x o).i = s.i := by unfold State.writeAlu; split <;> rfl
@[simp] theorem State.writeAlu_stack (x : Nibble) (o : AluOut) : (s.writeAlu x o).stack = s.stack := by unfold State.writeAlu; split <;> rfl
@[simp] theorem State.writeAlu_sp (x : Nibble) (o : AluOut) : (s.writeAlu x o).sp = s.sp := by unfold State.writeAlu; split <;> rfl
@[simp] theorem State.writeAlu_dt (x : Nibble) (o : AluOut) : (s.writeAlu x o).dt = s.dt := by unfold State.writeAlu; split <;> rfl
@[simp] theorem State.writeAlu_st (x : Nibble) (o : AluOut) : (s.writeAlu x o).st = s.st := by unfold State.writeAlu; split <;> rfl
@[simp] theorem State.writeAlu_disp (x : Nibble) (o : AluOut) : (s.writeAlu x o).disp = s.disp := by unfold State.writeAlu; split <;> rfl
@[simp] theorem State.writeAlu_runstate (x : Nibble) (o : AluOut) : (s.writeAlu x o).runstate = s.runstate := by unfold State.writeAlu; split <;> rfl
@[simp] theorem State.writeAlu_fault (x : Nibble) (o : AluOut) : (s.writeAlu x o).fault = s.fault := by unfold State.writeAlu; split <;> rfl
@[simp] theorem State.writeAlu_mem (x : Nibble) (o : AluOut) : (s.writeAlu x o).mem = s.mem := by unfold State.writeAlu; split <;> rfl
@[simp] theorem State.writeAlu_config (x : Nibble) (o : AluOut) : (s.writeAlu x o).config = s.config := by unfold State.writeAlu; split <;> rfl
@[simp] theorem State.writeAlu_host (x : Nibble) (o : AluOut) : (s.writeAlu x o).host = s.host := by unfold State.writeAlu; split <;> rfl
@[simp] theorem State.writeAlu_readByte (x : Nibble) (o : AluOut) (z : Nat) : (s.writeAlu x o).readByte z = s.readByte z := by simp [State.readByte]

/-! ## `aluRegs` -/

@[simp] theorem State.aluRegs_pc (op : AluOp) (x y : Nibble) : (s.aluRegs op x y).pc = s.pc := by simp [State.aluRegs]
@[simp] theorem State.aluRegs_i (op : AluOp) (x y : Nibble) : (s.aluRegs op x y).i = s.i := by simp [State.aluRegs]
@[simp] theorem State.aluRegs_stack (op : AluOp) (x y : Nibble) : (s.aluRegs op x y).stack = s.stack := by simp [State.aluRegs]
@[simp] theorem State.aluRegs_sp (op : AluOp) (x y : Nibble) : (s.aluRegs op x y).sp = s.sp := by simp [State.aluRegs]
@[simp] theorem State.aluRegs_dt (op : AluOp) (x y : Nibble) : (s.aluRegs op x y).dt = s.dt := by simp [State.aluRegs]
@[simp] theorem State.aluRegs_st (op : AluOp) (x y : Nibble) : (s.aluRegs op x y).st = s.st := by simp [State.aluRegs]
@[simp] theorem State.aluRegs_disp (op : AluOp) (x y : Nibble) : (s.aluRegs op x y).disp = s.disp := by simp [State.aluRegs]
@[simp] theorem State.aluRegs_runstate (op : AluOp) (x y : Nibble) : (s.aluRegs op x y).runstate = s.runstate := by simp [State.aluRegs]
@[simp] theorem State.aluRegs_fault (op : AluOp) (x y : Nibble) : (s.aluRegs op x y).fault = s.fault := by simp [State.aluRegs]
@[simp] theorem State.aluRegs_mem (op : AluOp) (x y : Nibble) : (s.aluRegs op x y).mem = s.mem := by simp [State.aluRegs]
@[simp] theorem State.aluRegs_config (op : AluOp) (x y : Nibble) : (s.aluRegs op x y).config = s.config := by simp [State.aluRegs]
@[simp] theorem State.aluRegs_host (op : AluOp) (x y : Nibble) : (s.aluRegs op x y).host = s.host := by simp [State.aluRegs]
@[simp] theorem State.aluRegs_readByte (op : AluOp) (x y : Nibble) (z : Nat) : (s.aluRegs op x y).readByte z = s.readByte z := by simp [State.readByte]

/-! ## The pop, and the reset of the block -/

theorem State.popPc_pc : (s.popPc).pc = s.stack[s.sp.val - 1]'(by have := s.sp.isLt; omega) := rfl
@[simp] theorem State.popPc_sp : (s.popPc).sp.val = s.sp.val - 1 := rfl
@[simp] theorem State.resetBlock_config : (s.resetBlock).config = s.config := rfl
@[simp] theorem State.resetBlock_host : (s.resetBlock).host = s.host := rfl

/-! ## `loadV`: by induction on the bytes -/

@[simp] theorem State.loadV_pc (s : State) (n : Nat) (bs : List Byte) : (s.loadV n bs).pc = s.pc := by
  induction bs generalizing s n with
  | nil => rfl
  | cons b bs ih => simp [State.loadV, ih]

@[simp] theorem State.loadV_i (s : State) (n : Nat) (bs : List Byte) : (s.loadV n bs).i = s.i := by
  induction bs generalizing s n with
  | nil => rfl
  | cons b bs ih => simp [State.loadV, ih]

@[simp] theorem State.loadV_stack (s : State) (n : Nat) (bs : List Byte) : (s.loadV n bs).stack = s.stack := by
  induction bs generalizing s n with
  | nil => rfl
  | cons b bs ih => simp [State.loadV, ih]

@[simp] theorem State.loadV_sp (s : State) (n : Nat) (bs : List Byte) : (s.loadV n bs).sp = s.sp := by
  induction bs generalizing s n with
  | nil => rfl
  | cons b bs ih => simp [State.loadV, ih]

@[simp] theorem State.loadV_dt (s : State) (n : Nat) (bs : List Byte) : (s.loadV n bs).dt = s.dt := by
  induction bs generalizing s n with
  | nil => rfl
  | cons b bs ih => simp [State.loadV, ih]

@[simp] theorem State.loadV_st (s : State) (n : Nat) (bs : List Byte) : (s.loadV n bs).st = s.st := by
  induction bs generalizing s n with
  | nil => rfl
  | cons b bs ih => simp [State.loadV, ih]

@[simp] theorem State.loadV_disp (s : State) (n : Nat) (bs : List Byte) : (s.loadV n bs).disp = s.disp := by
  induction bs generalizing s n with
  | nil => rfl
  | cons b bs ih => simp [State.loadV, ih]

@[simp] theorem State.loadV_runstate (s : State) (n : Nat) (bs : List Byte) : (s.loadV n bs).runstate = s.runstate := by
  induction bs generalizing s n with
  | nil => rfl
  | cons b bs ih => simp [State.loadV, ih]

@[simp] theorem State.loadV_fault (s : State) (n : Nat) (bs : List Byte) : (s.loadV n bs).fault = s.fault := by
  induction bs generalizing s n with
  | nil => rfl
  | cons b bs ih => simp [State.loadV, ih]

@[simp] theorem State.loadV_mem (s : State) (n : Nat) (bs : List Byte) : (s.loadV n bs).mem = s.mem := by
  induction bs generalizing s n with
  | nil => rfl
  | cons b bs ih => simp [State.loadV, ih]

@[simp] theorem State.loadV_config (s : State) (n : Nat) (bs : List Byte) : (s.loadV n bs).config = s.config := by
  induction bs generalizing s n with
  | nil => rfl
  | cons b bs ih => simp [State.loadV, ih]

@[simp] theorem State.loadV_host (s : State) (n : Nat) (bs : List Byte) : (s.loadV n bs).host = s.host := by
  induction bs generalizing s n with
  | nil => rfl
  | cons b bs ih => simp [State.loadV, ih]

@[simp] theorem State.loadV_readByte (n : Nat) (bs : List Byte) (z : Nat) :
    (s.loadV n bs).readByte z = s.readByte z := by simp [State.readByte]

end Sys2Proof.Machine
end

