-- ==== Sys2Proof/Laws/Memory.lean ====
section
/-! SUPPORT. Memory: read after write, the canonical form, and the block operations (R81, R88, R92). -/

namespace Sys2Proof.Machine

/-! ## One cell -/

theorem Memory.read_insert (font : Font) (m : List Host.Cell) (a b : Nat) (x : Byte) :
    Memory.read font (Memory.insert a x m) b = if b = a then x else Memory.read font m b := by
  induction m with
  | nil => rfl
  | cons c m ih =>
    unfold Memory.insert
    split
    · rfl
    · split
      · next h => subst h; simp only [Memory.read]; split <;> rfl
      · next h1 h2 =>
        simp only [Memory.read, ih]
        split
        · next h => subst h; rw [if_neg (fun h => h2 h.symm)]
        · rfl

theorem Memory.read_erase (font : Font) (m : List Host.Cell) (a b : Nat) :
    Memory.read font (Memory.erase a m) b = if b = a then Memory.unlisted font b else Memory.read font m b := by
  induction m with
  | nil => simp [Memory.erase, Memory.read]
  | cons c m ih =>
    unfold Memory.erase at *
    by_cases hc : c.1 = a
    · simp only [List.filter_cons, hc, bne_self_eq_false, Bool.false_eq_true, if_false, ih, Memory.read]
      split <;> rfl
    · simp only [List.filter_cons, bne_iff_ne, ne_eq, hc, not_false_eq_true, if_true, Memory.read, ih]
      split
      · next h => subst h; rw [if_neg hc]
      · rfl

/-- A read after a write: the byte written at its address, the old byte everywhere else (R81). -/
@[simp] theorem Memory.read_write (font : Font) (m : List Host.Cell) (a b : Nat) (x : Byte) :
    Memory.read font (Memory.write font m a x) b = if b = a then x else Memory.read font m b := by
  unfold Memory.write
  split
  · next h => rw [Memory.read_erase, h]; split <;> simp_all
  · exact Memory.read_insert font m a b x

/-! ## The canonical form -/

theorem Memory.mem_insert {a : Nat} {x : Byte} {m : List Host.Cell} {c : Host.Cell}
    (h : c ∈ Memory.insert a x m) : c = (a, x) ∨ c ∈ m := by
  induction m with
  | nil => simpa [Memory.insert] using h
  | cons d m ih =>
    unfold Memory.insert at h
    split at h
    · simpa using h
    · split at h
      · rcases List.mem_cons.1 h with h | h
        · exact .inl h
        · exact .inr (List.mem_cons_of_mem _ h)
      · rcases List.mem_cons.1 h with h | h
        · exact .inr (h ▸ List.mem_cons_self)
        · exact (ih h).imp_right (List.mem_cons_of_mem _)

theorem Memory.pairwise_insert (a : Nat) (x : Byte) {m : List Host.Cell}
    (h : m.Pairwise fun c d => c.1 < d.1) : (Memory.insert a x m).Pairwise fun c d => c.1 < d.1 := by
  induction m with
  | nil => simp [Memory.insert]
  | cons d m ih =>
    have hd := List.pairwise_cons.1 h
    unfold Memory.insert
    split
    · next hlt =>
      refine List.pairwise_cons.2 ⟨fun c hc => ?_, h⟩
      rcases List.mem_cons.1 hc with rfl | hc
      · exact hlt
      · exact Nat.lt_trans hlt (hd.1 c hc)
    · split
      · next heq => subst heq; exact List.pairwise_cons.2 ⟨hd.1, hd.2⟩
      · next h1 h2 =>
        refine List.pairwise_cons.2 ⟨fun c hc => ?_, ih hd.2⟩
        rcases Memory.mem_insert hc with rfl | hc
        · show d.1 < a
          omega
        · exact hd.1 c hc

/-- A write in range keeps the canonical form. -/
theorem Memory.wf_write {font : Font} {m : List Host.Cell} (h : Memory.wf font m) {a : Nat} (ha : a < memSize)
    (x : Byte) : Memory.wf font (Memory.write font m a x) := by
  unfold Memory.write
  split
  · exact ⟨h.1.filter _, fun c hc => h.2 c (List.mem_filter.1 hc).1⟩
  · next hx =>
    refine ⟨Memory.pairwise_insert a x h.1, fun c hc => ?_⟩
    rcases Memory.mem_insert hc with rfl | hc
    · exact ⟨ha, hx⟩
    · exact h.2 c hc

theorem Memory.wf_nil (font : Font) : Memory.wf font [] := ⟨.nil, by simp⟩

/-! ## Blocks -/

@[simp] theorem Memory.readBlock_length (font : Font) (m : List Host.Cell) (a n : Nat) :
    (Memory.readBlock font m a n).length = n := by
  induction n generalizing a with
  | zero => rfl
  | succ n ih => simp [Memory.readBlock, ih]

/-- The k-th byte of a block read is the byte at a + k. -/
theorem Memory.readBlock_getElem (font : Font) (m : List Host.Cell) (a n k : Nat) (h : k < n) :
    (Memory.readBlock font m a n)[k]'(by simpa using h) = Memory.read font m (a + k) := by
  induction n generalizing a k with
  | zero => omega
  | succ n ih =>
    cases k with
    | zero => rfl
    | succ k =>
      simp only [Memory.readBlock, List.getElem_cons_succ]
      rw [ih (a + 1) k (by omega)]
      congr 1
      omega

/-- A read after a block write: the k-th byte at a + k, the old byte outside the block (R92). -/
theorem Memory.read_writeBlock (font : Font) (m : List Host.Cell) (a : Nat) (bs : List Byte) (b : Nat) :
    Memory.read font (Memory.writeBlock font m a bs) b =
      if h : a ≤ b ∧ b - a < bs.length then bs[b - a]'h.2 else Memory.read font m b := by
  induction bs generalizing m a with
  | nil => simp [Memory.writeBlock]
  | cons x bs ih =>
    simp only [Memory.writeBlock, ih, Memory.read_write, List.length_cons]
    by_cases hba : b = a
    · subst hba
      have h1 : ¬ (b + 1 ≤ b ∧ b - (b + 1) < bs.length) := by omega
      have h2 : b ≤ b ∧ b - b < bs.length + 1 := by omega
      rw [dif_neg h1, dif_pos h2, if_pos rfl]
      simp
    · by_cases hb : a + 1 ≤ b ∧ b - (a + 1) < bs.length
      · have h2 : a ≤ b ∧ b - a < bs.length + 1 := by omega
        rw [dif_pos hb, dif_pos h2]
        have : b - a = (b - (a + 1)) + 1 := by omega
        simp only [this, List.getElem_cons_succ]
      · have h2 : ¬ (a ≤ b ∧ b - a < bs.length + 1) := by omega
        rw [dif_neg hb, dif_neg h2, if_neg hba]

/-- A block write in range keeps the canonical form. -/
theorem Memory.wf_writeBlock {font : Font} {m : List Host.Cell} (h : Memory.wf font m) {a : Nat} {bs : List Byte}
    (hb : a + bs.length ≤ memSize) : Memory.wf font (Memory.writeBlock font m a bs) := by
  induction bs generalizing m a with
  | nil => exact h
  | cons x bs ih =>
    simp only [List.length_cons] at hb
    exact ih (Memory.wf_write h (by omega) x) (by omega)

/-! ## The same of a state -/

@[simp] theorem State.readByte_writeByte (s : State) (a b : Nat) (x : Byte) :
    (s.writeByte a x).readByte b = if b = a then x else s.readByte b := by simp [State.readByte]

theorem State.readByte_writeBytes (s : State) (a b : Nat) (bs : List Byte) :
    (s.writeBytes a bs).readByte b = if h : a ≤ b ∧ b - a < bs.length then bs[b - a]'h.2 else s.readByte b := by
  simp [State.readByte, Memory.read_writeBlock]

/-- The k-th byte of a block written. -/
theorem State.readByte_writeBytes_at (s : State) (a k : Nat) (bs : List Byte) (h : k < bs.length) :
    (s.writeBytes a bs).readByte (a + k) = bs[k] := by
  rw [State.readByte_writeBytes, dif_pos (by omega)]
  simp

theorem State.readByte_writeBytes_outside (s : State) (a b : Nat) (bs : List Byte)
    (h : ∀ k < bs.length, b ≠ a + k) : (s.writeBytes a bs).readByte b = s.readByte b := by
  rw [State.readByte_writeBytes, dif_neg]
  rintro ⟨h1, h2⟩
  exact h _ h2 (by omega)

@[simp] theorem State.readBytes_length (s : State) (a n : Nat) : (s.readBytes a n).length = n :=
  Memory.readBlock_length _ _ _ _

theorem State.readBytes_getElem (s : State) (a n k : Nat) (h : k < n) :
    (s.readBytes a n)[k]'(by simpa using h) = s.readByte (a + k) :=
  Memory.readBlock_getElem _ _ _ _ _ h

end Sys2Proof.Machine
end

