-- ==== Sys2Proof/Laws/Registers.lean ====
section
/-! SUPPORT. The V registers: read after write, the block forms, and the result-then-flag order of the ALU (R40, R211). -/

namespace Sys2Proof.Machine

variable (s : State)

@[simp] theorem State.getV_setV_self (x : Nibble) (b : Byte) : (s.setV x b).getV x = b := by
  simp [State.getV, State.setV]

theorem State.getV_setV_of_ne {x z : Nibble} (h : z ≠ x) (b : Byte) : (s.setV x b).getV z = s.getV z := by
  have : x.toNat ≠ z.toNat := fun e => h (BitVec.eq_of_toNat_eq e).symm
  simp [State.getV, State.setV, this]

theorem State.getV_setV (x z : Nibble) (b : Byte) : (s.setV x b).getV z = if z = x then b else s.getV z := by
  split
  · next h => subst h; exact s.getV_setV_self z b
  · next h => exact s.getV_setV_of_ne h b

/-- Two states with the same V registers, one by one, have the same register file. -/
theorem State.v_eq_of_getV {s t : State} (h : ∀ x, t.getV x = s.getV x) : t.v = s.v := by
  apply Vector.ext
  intro k hk
  have := h (BitVec.ofNat 4 k)
  simpa [State.getV, Nat.mod_eq_of_lt hk] using this

/-- What the ALU's write leaves in a register: the flag in VF where fw = 1, else the result in V[x] (R211). -/
theorem State.writeAlu_getV (x : Nibble) (o : AluOut) (z : Nibble) :
    (s.writeAlu x o).getV z =
      match o.fw, o.f with
      | true, some f => if z = vf then flagByte f else if z = x then o.r else s.getV z
      | _, _ => if z = x then o.r else s.getV z := by
  obtain ⟨r, f, fw⟩ := o
  cases fw <;> cases f <;> simp [State.writeAlu, State.getV_setV]

theorem State.getV_ofNat (k : Nat) (h : k < 16) : s.getV (BitVec.ofNat 4 k) = s.v[k] := by
  simp [State.getV, Nat.mod_eq_of_lt h]

@[simp] theorem State.regsUpTo_length (x : Nibble) : (s.regsUpTo x).length = x.toNat + 1 := by
  have := x.isLt
  simp only [State.regsUpTo, List.length_take, Vector.length_toList]
  omega

/-- The k-th byte of V0..Vx is V[k]. -/
theorem State.regsUpTo_getElem (x z : Nibble) (h : z.toNat ≤ x.toNat) :
    (s.regsUpTo x)[z.toNat]'(by simp; omega) = s.getV z := by
  simp [State.regsUpTo, State.getV]

/-- What a block load leaves in a register: the byte at its place in the list, from register n on (R265). -/
theorem State.loadV_getV (n : Nat) (bs : List Byte) (hn : n + bs.length ≤ 16) (z : Nibble) :
    (s.loadV n bs).getV z =
      if h : n ≤ z.toNat ∧ z.toNat - n < bs.length then bs[z.toNat - n]'h.2 else s.getV z := by
  induction bs generalizing s n with
  | nil => simp [State.loadV]
  | cons b bs ih =>
    simp only [List.length_cons] at hn
    rw [State.loadV, ih (s.setV (BitVec.ofNat 4 n) b) (n + 1) (by omega)]
    have hz : z = BitVec.ofNat 4 n ↔ z.toNat = n := by
      constructor
      · rintro rfl; simp; omega
      · intro e; apply BitVec.eq_of_toNat_eq; simp; omega
    simp only [State.getV_setV, hz, List.length_cons]
    by_cases hzn : z.toNat = n
    · rw [dif_neg (by omega), dif_pos (by omega), if_pos hzn]
      simp [hzn]
    · by_cases hb : n + 1 ≤ z.toNat ∧ z.toNat - (n + 1) < bs.length
      · rw [dif_pos hb, dif_pos (by omega)]
        have : z.toNat - n = (z.toNat - (n + 1)) + 1 := by omega
        simp only [this, List.getElem_cons_succ]
      · rw [dif_neg hb, dif_neg (by omega), if_neg hzn]

/-- The ALU's write changes the V registers only, by the result and then the flag (R211). -/
theorem State.writeAlu_eq (x : Nibble) (o : AluOut) : s.writeAlu x o =
    { s with v := match o.fw, o.f with
      | true, some f => (s.v.set x.toNat o.r x.isLt).set vf.toNat (flagByte f) vf.isLt
      | _, _ => s.v.set x.toNat o.r x.isLt } := by
  obtain ⟨r, f, fw⟩ := o
  cases fw <;> cases f <;> rfl

/-- A skip changes PC only (R188). -/
theorem State.skipIf_eq (c : Bool) : s.skipIf c = { s with pc := if c then s.pc + 2 else s.pc } := by
  cases c <;> rfl

/-- A block load changes the V registers only. -/
theorem State.loadV_eq (n : Nat) (bs : List Byte) : s.loadV n bs = { s with v := (s.loadV n bs).v } := by
  induction bs generalizing s n with
  | nil => rfl
  | cons b bs ih => rw [State.loadV, ih]; rfl

/-- What a block load leaves in the V registers depends on the V registers only. -/
theorem State.loadV_v_congr {s t : State} (h : s.v = t.v) (n : Nat) (bs : List Byte) :
    (s.loadV n bs).v = (t.loadV n bs).v := by
  induction bs generalizing s t n with
  | nil => exact h
  | cons b bs ih => exact ih (by simp [h]) _

end Sys2Proof.Machine
end

