-- ==== Sys2Proof/Laws/Frame.lean ====
section
/-! SUPPORT. The frame of each named update: which elements it can change, and how frames compose. -/

namespace Sys2Proof.Machine

/-! ## Composition -/

theorem ChangesOnly.refl (p : Element → Prop) (s : State) : ChangesOnly p s s := fun e _ => by cases e <;> rfl

theorem ChangesOnly.mono {p q : Element → Prop} {s t : State} (h : ChangesOnly p s t) (hpq : ∀ e, p e → q e) :
    ChangesOnly q s t := fun e he => h e fun hp => he (hpq e hp)

theorem Agree.trans {s t u : State} {e : Element} (h1 : Agree s t e) (h2 : Agree t u e) : Agree s u e := by
  cases e <;> exact Eq.trans h2 h1

theorem ChangesOnly.trans {p : Element → Prop} {s t u : State} (h1 : ChangesOnly p s t) (h2 : ChangesOnly p t u) :
    ChangesOnly p s u := fun e he => (h1 e he).trans (h2 e he)

/-! ## One lemma per update -/

variable {s : State} {p : Element → Prop}

theorem changesOnly_setV {x : Nibble} {b : Byte} (h : p (.v x)) : ChangesOnly p s (s.setV x b) := by
  intro e he
  cases e with
  | v z => exact s.getV_setV_of_ne (fun hz => he (by rwa [hz])) b
  | _ => simp [Agree]

theorem changesOnly_setPc {a : Word} (h : p .pc) : ChangesOnly p s (s.setPc a) := by
  intro e he
  cases e with
  | pc => exact absurd h he
  | _ => simp [Agree]

theorem changesOnly_advancePc (h : p .pc) : ChangesOnly p s s.advancePc := by
  intro e he
  cases e with
  | pc => exact absurd h he
  | _ => simp [Agree]

theorem changesOnly_skipIf {c : Bool} (h : p .pc) : ChangesOnly p s (s.skipIf c) := by
  cases c
  · exact ChangesOnly.refl _ _
  · exact changesOnly_advancePc h

theorem changesOnly_setI {a : Word} (h : p .i) : ChangesOnly p s (s.setI a) := by
  intro e he
  cases e with
  | i => exact absurd h he
  | _ => simp [Agree]

theorem changesOnly_setDt {b : Byte} (h : p .dt) : ChangesOnly p s (s.setDt b) := by
  intro e he
  cases e with
  | dt => exact absurd h he
  | _ => simp [Agree]

theorem changesOnly_setSt {b : Byte} (h : p .st) : ChangesOnly p s (s.setSt b) := by
  intro e he
  cases e with
  | st => exact absurd h he
  | _ => simp [Agree]

theorem changesOnly_setRunstate {r : RunState} (h : p .runstate) : ChangesOnly p s (s.setRunstate r) := by
  intro e he
  cases e with
  | runstate => exact absurd h he
  | _ => simp [Agree]

theorem changesOnly_enterFault {c : FaultCause} {a w : Word} {n : Nat} (h1 : p .runstate) (h2 : p .fault) :
    ChangesOnly p s (s.enterFault c a w n) := by
  intro e he
  cases e with
  | runstate => exact absurd h1 he
  | fault => exact absurd h2 he
  | _ => simp [Agree]

theorem changesOnly_raise {i : Instr} {c : FaultCause} {n : Nat} (h1 : p .runstate) (h2 : p .fault) :
    ChangesOnly p s (s.raise i c n) := changesOnly_enterFault h1 h2

theorem changesOnly_push {a : Word} {h : s.sp.val < 16} (h1 : p .sp) (h2 : p (.slot ⟨s.sp.val, h⟩)) :
    ChangesOnly p s (s.push a h) := by
  intro e he
  cases e with
  | sp => exact absurd h1 he
  | slot k =>
    have hk : s.sp.val ≠ k.val := fun e => he (by rwa [show k = ⟨s.sp.val, h⟩ from Fin.ext e.symm])
    simp [Agree, Vector.get_eq_getElem, hk]
  | _ => simp [Agree]

theorem changesOnly_popPc (h1 : p .sp) (h2 : p .pc) : ChangesOnly p s s.popPc := by
  intro e he
  cases e with
  | sp => exact absurd h1 he
  | pc => exact absurd h2 he
  | _ => simp [Agree]

theorem changesOnly_setDisp {d : Display} (h : ∀ row col, d.pixel row col ≠ s.disp.pixel row col → p (.pixel row col)) :
    ChangesOnly p s (s.setDisp d) := by
  intro e he
  cases e with
  | pixel row col => exact Classical.byContradiction fun hne => he (h row col hne)
  | _ => simp [Agree]

theorem changesOnly_writeBytes {a : Nat} {bs : List Byte} (h : ∀ k < bs.length, p (.byte (a + k))) :
    ChangesOnly p s (s.writeBytes a bs) := by
  intro e he
  cases e with
  | byte z => exact s.readByte_writeBytes_outside a z bs fun k hk hz => he (hz ▸ h k hk)
  | _ => simp [Agree]

theorem changesOnly_loadV {n : Nat} {bs : List Byte} (hn : n + bs.length ≤ 16)
    (h : ∀ x : Nibble, n ≤ x.toNat → x.toNat < n + bs.length → p (.v x)) : ChangesOnly p s (s.loadV n bs) := by
  intro e he
  cases e with
  | v z =>
    show (s.loadV n bs).getV z = s.getV z
    rw [s.loadV_getV n bs hn z, dif_neg]
    exact fun hz => he (h z hz.1 (by omega))
  | _ => simp [Agree]

theorem changesOnly_writeAlu {x : Nibble} {o : AluOut} (h1 : p (.v x)) (h2 : o.fw = true → p (.v vf)) :
    ChangesOnly p s (s.writeAlu x o) := by
  obtain ⟨r, f, fw⟩ := o
  cases fw with
  | false => cases f <;> exact changesOnly_setV h1
  | true =>
    cases f with
    | none => exact changesOnly_setV h1
    | some f => exact (changesOnly_setV h1).trans (changesOnly_setV (h2 rfl))

theorem changesOnly_sampleInputs {k : BitVec 16} {r : Byte} (h : p .host) : ChangesOnly p s (s.sampleInputs k r) := by
  intro e he
  cases e with
  | host => exact absurd h he
  | _ => simp [Agree]

theorem changesOnly_takeRequest (h : p .host) : ChangesOnly p s s.takeRequest := by
  intro e he
  cases e with
  | host => exact absurd h he
  | _ => simp [Agree]

end Sys2Proof.Machine
end

