-- ==== Sys2Proof/Laws/Cycle.lean ====
section
/-! SUPPORT. What the cycle driver and the host's transactions can do, said once (R150 to R152, R321, R330, R400, R403). -/

namespace Sys2Proof.Machine

/-! ## Handlers -/

/-- An access through I either has its effect, its addresses in range, or raises its fault (R90). -/
theorem State.throughIndex_cases (s : State) (i : Instr) (c : FaultCause) (n : Nat) (effect : State) :
    (s.BlockInRange n ∧ s.throughIndex i c n effect = .next effect) ∨
    (¬ s.BlockInRange n ∧ s.throughIndex i c n effect = .next (s.raise i c s.lowestOutOfRange)) := by
  unfold State.throughIndex
  split
  · next h => exact .inl ⟨h, rfl⟩
  · next h => exact .inr ⟨h, rfl⟩

theorem State.throughIndex_of_inRange {s : State} {n : Nat} (h : s.BlockInRange n) (i : Instr) (c : FaultCause)
    (effect : State) : s.throughIndex i c n effect = .next effect := if_pos h

/-- Every handler answers a next state (R154). -/
theorem exec_next (i : Instr) (s : State) : ∃ t, exec i s = .next t := by
  cases i with
  | ret => simp only [exec, execRet]; split <;> exact ⟨_, rfl⟩
  | call nnn => simp only [exec, execCall]; split <;> exact ⟨_, rfl⟩
  | skipIfKeyDown x => simp only [exec, execSkipIfKeyDown]; split <;> exact ⟨_, rfl⟩
  | skipIfKeyUp x => simp only [exec, execSkipIfKeyUp]; split <;> exact ⟨_, rfl⟩
  | draw x y n => simp only [exec, execDraw, State.throughIndex]; split <;> exact ⟨_, rfl⟩
  | bcd x => simp only [exec, execBcd, State.throughIndex]; split <;> exact ⟨_, rfl⟩
  | storeRegs x => simp only [exec, execStoreRegs, State.throughIndex]; split <;> exact ⟨_, rfl⟩
  | loadRegs x => simp only [exec, execLoadRegs, State.throughIndex]; split <;> exact ⟨_, rfl⟩
  | _ => exact ⟨_, rfl⟩

/-! ## The cycle driver -/

/-- What fetch and execute can do: run the decoded instruction, run the Undefined no-op, or fault at the fetch (R150). -/
theorem State.fetchExecute_cases (s : State) :
    (∃ i, s.FetchInRange ∧ decode s.fetchWord = some i ∧ s.fetchExecute = exec i s.advancePc) ∨
    (s.FetchInRange ∧ decode s.fetchWord = none ∧ s.fetchExecute = .next s.advancePc) ∨
    (¬ s.FetchInRange ∧
      s.fetchExecute = .next (s.enterFault .fetchOutOfRange s.pc 0 s.fetchFaultInfo)) := by
  unfold State.fetchExecute
  split
  · next h =>
    cases hd : decode s.fetchWord with
    | some i => exact .inl ⟨i, h, rfl, by simp [State.execWord, hd]⟩
    | none => exact .inr (.inl ⟨h, rfl, by simp [State.execWord, hd, execUndefined]⟩)
  · next h => exact .inr (.inr ⟨h, rfl⟩)

@[simp] theorem State.fetchWord_sampleInputs (s : State) (k : BitVec 16) (r : Byte) :
    (s.sampleInputs k r).fetchWord = s.fetchWord := by simp [State.fetchWord]

theorem State.stepCore_running {s : State} (h : s.runstate = .running) (k : BitVec 16) (r : Byte) :
    s.stepCore k r = (s.sampleInputs k r).fetchExecute := by simp [State.stepCore, h]

theorem State.stepCore_awaiting {s : State} {x : Nibble} (h : s.runstate = .awaitingKey x) (k : BitVec 16)
    (r : Byte) : s.stepCore k r = .next s := by simp [State.stepCore, h]

theorem State.stepCore_faulted {s : State} (h : s.runstate = .faulted) (k : BitVec 16) (r : Byte) :
    s.stepCore k r = .next s := by simp [State.stepCore, h]

/-- A byte that memory holds at an address is what the next fetch reads there (R83, R95). -/
theorem State.fetchReads_of_readByte {s : State} {a : Nat} {b : Byte} (h : s.readByte a = b) : s.FetchReads a b := by
  have hw : s.fetchWord.toNat = (s.readByte s.pc.toNat).toNat * 256 + (s.readByte (s.pc.toNat + 1)).toNat := by
    show (s.readByte s.pc.toNat ++ s.readByte (s.pc.toNat + 1)).toNat = _
    rw [BitVec.toNat_append, ← Nat.shiftLeft_add_eq_or_of_lt (BitVec.isLt _), Nat.shiftLeft_eq]
  have := (s.readByte (s.pc.toNat + 1)).isLt
  constructor <;> intro ha <;> subst ha <;> rw [hw, ← h] <;> omega

/-! ## The host -/

theorem State.nextRequest_cons {s : State} {r : Request} {rest : List Request} (h : s.host.requests = r :: rest) :
    s.nextRequest = r := by simp [State.nextRequest, h]

theorem State.nextRequest_nil {s : State} (h : s.host.requests = []) :
    s.nextRequest = .step (Config.freeKeys s.host.draws) (Config.freeRand8 s.host.draws) := by
  simp [State.nextRequest, h]

theorem State.takeRequest_host (s : State) : s.takeRequest.host =
    { s.host with
      requests := s.host.requests.tail
      draws := if s.host.requests = [] then s.host.draws + 1 else s.host.draws } := by
  cases h : s.host.requests <;> simp [State.takeRequest, h]

@[simp] theorem State.fetchWord_takeRequest (s : State) : s.takeRequest.fetchWord = s.fetchWord := by
  simp [State.fetchWord]

/-- What `load_rom` can do: nothing, where it is rejected, or write the bytes at ROM_BASE (R403). -/
theorem State.loadRom_cases (s : State) (bytes : List Byte) :
    (bytes.length > maxRom ∧ s.loadRom bytes = s) ∨
    (bytes.length ≤ maxRom ∧ s.loadRom bytes = s.writeBytes romBase bytes) := by
  unfold State.loadRom loadRomReply
  by_cases h : bytes.length > maxRom
  · exact .inl ⟨h, by simp [h]⟩
  · exact .inr ⟨by omega, by simp [h]⟩

/-- What a key event can do: complete the pending wait, or nothing (R330). -/
theorem State.deliverKeyEvent_cases (s : State) (k : Nibble) :
    (∃ x, s.runstate = .awaitingKey x ∧
      s.deliverKeyEvent k = (s.setV x (k.zeroExtend 8)).setRunstate .running) ∨
    ((∀ x, s.runstate ≠ .awaitingKey x) ∧ s.deliverKeyEvent k = s) := by
  cases h : s.runstate with
  | awaitingKey x => exact .inl ⟨x, rfl, by simp [State.deliverKeyEvent, h]⟩
  | running => exact .inr ⟨by simp, by simp [State.deliverKeyEvent, h]⟩
  | faulted => exact .inr ⟨by simp, by simp [State.deliverKeyEvent, h]⟩

theorem tickTimer_toNat (b : Byte) : (tickTimer b).toNat = b.toNat - 1 := by
  unfold tickTimer
  split
  · next h => subst h; rfl
  · next h =>
    have h0 : b.toNat ≠ 0 := fun e => h (BitVec.eq_of_toNat_eq e)
    have := b.isLt
    rw [BitVec.toNat_sub]
    simp
    omega

end Sys2Proof.Machine
end

