-- ==== Sys2Proof/Laws/Display.lean ====
section
/-! SUPPORT. The display's write port (R290) and one sprite pixel (R292). -/

namespace Sys2Proof.Machine

/-- A toggle flips its own bit and no other (R290). -/
theorem Display.pixel_toggle (d : Display) (row row' : Fin 32) (col col' : Fin 64) :
    (d.toggle row col).pixel row' col' =
      if row' = row ∧ col' = col then !d.pixel row col else d.pixel row' col' := by
  simp only [Display.pixel, Display.toggle, Vector.get_eq_getElem, Vector.getElem_set]
  by_cases hr : row' = row
  · subst hr
    by_cases hc : col' = col
    · subst hc; simp
    · have : col.val ≠ col'.val := fun e => hc (Fin.ext e.symm)
      simp [hc, this]
  · have : row.val ≠ row'.val := fun e => hr (Fin.ext e.symm)
    simp [hr, this]

@[simp] theorem Display.pixel_clear (row : Fin 32) (col : Fin 64) : Display.clear.pixel row col = false := by
  simp [Display.pixel, Display.clear, Vector.get_eq_getElem]

/-- Two displays with the same pixels are the same. -/
theorem Display.ext_pixel {d e : Display} (h : ∀ row col, d.pixel row col = e.pixel row col) : d = e := by
  apply Vector.ext
  intro r hr
  apply Vector.ext
  intro c hc
  simpa [Display.pixel, Vector.get_eq_getElem] using h ⟨r, hr⟩ ⟨c, hc⟩

/-- What one sprite pixel can do: nothing, or toggle its target and hit where the target was lit. -/
theorem Canvas.drawPixel_cases (p : Canvas) (edge : DrawEdge) (cx cy r c : Nat) (bit : Bool) :
    (p.drawPixel edge cx cy r c bit = p ∧ (bit = false ∨ spriteTarget edge cx cy r c = none)) ∨
    ∃ row col, bit = true ∧ spriteTarget edge cx cy r c = some (row, col) ∧
      p.drawPixel edge cx cy r c bit = ⟨p.disp.toggle row col, p.hit || p.disp.pixel row col⟩ := by
  cases bit with
  | false => exact .inl ⟨rfl, .inl rfl⟩
  | true =>
    cases h : spriteTarget edge cx cy r c with
    | none => exact .inl ⟨by simp [Canvas.drawPixel, h], .inr rfl⟩
    | some q => exact .inr ⟨q.1, q.2, rfl, by simp, by simp [Canvas.drawPixel, h]⟩

/-- The pixel a sprite bit falls on, as R292 computes it. -/
theorem spriteTarget_eq_some {edge : DrawEdge} {cx cy r c : Nat} {row : Fin 32} {col : Fin 64} :
    spriteTarget edge cx cy r c = some (row, col) ↔
      match edge with
      | .wrap => (cy + r) % 32 = row.val ∧ (cx + c) % 64 = col.val
      | .clip => cy + r = row.val ∧ cx + c = col.val := by
  have := row.isLt
  have := col.isLt
  cases edge with
  | wrap => simp [spriteTarget, Fin.ext_iff]
  | clip =>
    simp only [spriteTarget]
    split
    · simp [Fin.ext_iff]
    · simp; omega

end Sys2Proof.Machine
end

