-- ==== Sys2Proof/Laws/PerInstr.lean ====
section
/-! SUPPORT. Facts about every instruction as a term, one lemma per constructor. -/

namespace Sys2Proof.Laws

/-- The decoder's tag for an instruction's word is the instruction's tag (R113, R121). -/
def Encoding.Statement (i : Instr) : Prop := i.wellFormed = true → decodeTag (encode i) = i.tag

theorem Encoding.machineRoutine (nnn : Addr12) : Encoding.Statement (.machineRoutine nnn) := by
  intro h
  simp only [Instr.wellFormed, Bool.and_eq_true, bne_iff_ne, ne_eq] at h
  have h1 : wordNNN 0x0#4 nnn ≠ 0x00E0#16 := fun e => h.1 (by rw [← nnnOf_wordNNN 0x0#4 nnn, e]; decide)
  have h2 : wordNNN 0x0#4 nnn ≠ 0x00EE#16 := fun e => h.2 (by rw [← nnnOf_wordNNN 0x0#4 nnn, e]; decide)
  simp [encode, decodeTag, decodeGroup0, Instr.tag, h1, h2]

theorem Encoding.clearScreen : Encoding.Statement (.clearScreen) := by
  intro _; decide

theorem Encoding.ret : Encoding.Statement (.ret) := by
  intro _; decide

theorem Encoding.jump (nnn : Addr12) : Encoding.Statement (.jump nnn) := by
  intro _; simp [encode, decodeTag, Instr.tag]

theorem Encoding.call (nnn : Addr12) : Encoding.Statement (.call nnn) := by
  intro _; simp [encode, decodeTag, Instr.tag]

theorem Encoding.skipIfEqual (x : Nibble) (nn : Byte) : Encoding.Statement (.skipIfEqual x nn) := by
  intro _; simp [encode, decodeTag, Instr.tag]

theorem Encoding.skipIfNotEqual (x : Nibble) (nn : Byte) : Encoding.Statement (.skipIfNotEqual x nn) := by
  intro _; simp [encode, decodeTag, Instr.tag]

theorem Encoding.skipIfRegEqual (x y n : Nibble) : Encoding.Statement (.skipIfRegEqual x y n) := by
  intro _; simp [encode, decodeTag, Instr.tag]

theorem Encoding.setReg (x : Nibble) (nn : Byte) : Encoding.Statement (.setReg x nn) := by
  intro _; simp [encode, decodeTag, Instr.tag]

theorem Encoding.addImmediate (x : Nibble) (nn : Byte) : Encoding.Statement (.addImmediate x nn) := by
  intro _; simp [encode, decodeTag, Instr.tag]

theorem Encoding.setRegToReg (x y : Nibble) : Encoding.Statement (.setRegToReg x y) := by
  intro _; simp [encode, decodeTag, decodeGroup8, Instr.tag]

theorem Encoding.or (x y : Nibble) : Encoding.Statement (.or x y) := by
  intro _; simp [encode, decodeTag, decodeGroup8, Instr.tag]

theorem Encoding.and (x y : Nibble) : Encoding.Statement (.and x y) := by
  intro _; simp [encode, decodeTag, decodeGroup8, Instr.tag]

theorem Encoding.xor (x y : Nibble) : Encoding.Statement (.xor x y) := by
  intro _; simp [encode, decodeTag, decodeGroup8, Instr.tag]

theorem Encoding.addRegToReg (x y : Nibble) : Encoding.Statement (.addRegToReg x y) := by
  intro _; simp [encode, decodeTag, decodeGroup8, Instr.tag]

theorem Encoding.subRegFromReg (x y : Nibble) : Encoding.Statement (.subRegFromReg x y) := by
  intro _; simp [encode, decodeTag, decodeGroup8, Instr.tag]

theorem Encoding.shiftRight (x y : Nibble) : Encoding.Statement (.shiftRight x y) := by
  intro _; simp [encode, decodeTag, decodeGroup8, Instr.tag]

theorem Encoding.subReverse (x y : Nibble) : Encoding.Statement (.subReverse x y) := by
  intro _; simp [encode, decodeTag, decodeGroup8, Instr.tag]

theorem Encoding.shiftLeft (x y : Nibble) : Encoding.Statement (.shiftLeft x y) := by
  intro _; simp [encode, decodeTag, decodeGroup8, Instr.tag]

theorem Encoding.skipIfRegNotEqual (x y n : Nibble) : Encoding.Statement (.skipIfRegNotEqual x y n) := by
  intro _; simp [encode, decodeTag, Instr.tag]

theorem Encoding.setIndex (nnn : Addr12) : Encoding.Statement (.setIndex nnn) := by
  intro _; simp [encode, decodeTag, Instr.tag]

theorem Encoding.jumpOffset (nnn : Addr12) : Encoding.Statement (.jumpOffset nnn) := by
  intro _; simp [encode, decodeTag, Instr.tag]

theorem Encoding.setRand (x : Nibble) (nn : Byte) : Encoding.Statement (.setRand x nn) := by
  intro _; simp [encode, decodeTag, Instr.tag]

theorem Encoding.draw (x y n : Nibble) : Encoding.Statement (.draw x y n) := by
  intro _; simp [encode, decodeTag, Instr.tag]

theorem Encoding.skipIfKeyDown (x : Nibble) : Encoding.Statement (.skipIfKeyDown x) := by
  intro _; simp [encode, decodeTag, decodeGroupE, Instr.tag]

theorem Encoding.skipIfKeyUp (x : Nibble) : Encoding.Statement (.skipIfKeyUp x) := by
  intro _; simp [encode, decodeTag, decodeGroupE, Instr.tag]

theorem Encoding.getDelay (x : Nibble) : Encoding.Statement (.getDelay x) := by
  intro _; simp [encode, decodeTag, decodeGroupF, Instr.tag]

theorem Encoding.waitKey (x : Nibble) : Encoding.Statement (.waitKey x) := by
  intro _; simp [encode, decodeTag, decodeGroupF, Instr.tag]

theorem Encoding.setDelay (x : Nibble) : Encoding.Statement (.setDelay x) := by
  intro _; simp [encode, decodeTag, decodeGroupF, Instr.tag]

theorem Encoding.setSound (x : Nibble) : Encoding.Statement (.setSound x) := by
  intro _; simp [encode, decodeTag, decodeGroupF, Instr.tag]

theorem Encoding.addIndex (x : Nibble) : Encoding.Statement (.addIndex x) := by
  intro _; simp [encode, decodeTag, decodeGroupF, Instr.tag]

theorem Encoding.fontAddr (x : Nibble) : Encoding.Statement (.fontAddr x) := by
  intro _; simp [encode, decodeTag, decodeGroupF, Instr.tag]

theorem Encoding.bcd (x : Nibble) : Encoding.Statement (.bcd x) := by
  intro _; simp [encode, decodeTag, decodeGroupF, Instr.tag]

theorem Encoding.storeRegs (x : Nibble) : Encoding.Statement (.storeRegs x) := by
  intro _; simp [encode, decodeTag, decodeGroupF, Instr.tag]

theorem Encoding.loadRegs (x : Nibble) : Encoding.Statement (.loadRegs x) := by
  intro _; simp [encode, decodeTag, decodeGroupF, Instr.tag]

end Sys2Proof.Laws
end

