-- ==== Sys2Proof/Tests/Slice0.lean ====
section
/-! SUPPORT. The model's own tests. Expected results are those of `95_test_vectors.md` (the section stands before each
group) or are read off the rule named. Below them, for every obligation with hypotheses, a witness that meets them. -/

namespace Sys2Proof.Tests

open Sys2Proof Sys2Proof.Machine

/-! ## Well-formedness (R114): the two exact words of group 0 are no MachineRoutine -/

theorem test_wellFormed_refuses_00E0 : (Instr.machineRoutine 0x0E0).wellFormed = false := by decide
theorem test_wellFormed_refuses_00EE : (Instr.machineRoutine 0x0EE).wellFormed = false := by decide
theorem test_wellFormed_accepts : (Instr.machineRoutine 0x0E1).wellFormed = true ∧
    (Instr.machineRoutine 0x000).wellFormed = true ∧ (Instr.skipIfRegEqual 0x1 0x2 0xF).wellFormed = true := by decide

/-! ## Decoding: words written out bit by bit from the patterns of R121 (section 2.1) -/

theorem test_decode_group0 :
    decode 0b0000_0000_0000_0000 = some (.machineRoutine 0x000) ∧ decode 0b0000_1111_1111_1111 = some (.machineRoutine 0xFFF) ∧
    decode 0b0000_0000_1110_0000 = some .clearScreen ∧ decode 0b0000_0000_1110_1110 = some .ret := by decide
theorem test_decode_jumps :
    decode 0b0001_1010_1011_1100 = some (.jump 0xABC) ∧ decode 0b0010_0011_0000_0000 = some (.call 0x300) ∧
    decode 0b1011_1111_1111_1111 = some (.jumpOffset 0xFFF) := by decide
theorem test_decode_skips :
    decode 0b0011_1010_0100_0010 = some (.skipIfEqual 0xA 0x42) ∧ decode 0b0100_0011_0001_0001 = some (.skipIfNotEqual 0x3 0x11) ∧
    decode 0b0101_0001_0010_1111 = some (.skipIfRegEqual 0x1 0x2 0xF) ∧
    decode 0b1001_0001_0010_1111 = some (.skipIfRegNotEqual 0x1 0x2 0xF) := by decide
theorem test_decode_immediates :
    decode 0b0110_1010_0100_0010 = some (.setReg 0xA 0x42) ∧ decode 0b0111_0000_0000_0010 = some (.addImmediate 0x0 0x02) ∧
    decode 0b1010_0001_0010_0011 = some (.setIndex 0x123) ∧ decode 0b1100_0011_1111_1111 = some (.setRand 0x3 0xFF) := by decide
theorem test_decode_group8 :
    decode 0x8AB0 = some (.setRegToReg 0xA 0xB) ∧ decode 0x8AB1 = some (.or 0xA 0xB) ∧ decode 0x8AB2 = some (.and 0xA 0xB) ∧
    decode 0x8AB3 = some (.xor 0xA 0xB) ∧ decode 0x8AB4 = some (.addRegToReg 0xA 0xB) ∧
    decode 0x8AB5 = some (.subRegFromReg 0xA 0xB) ∧ decode 0x8AB6 = some (.shiftRight 0xA 0xB) ∧
    decode 0x8AB7 = some (.subReverse 0xA 0xB) ∧ decode 0b1000_1010_1011_1110 = some (.shiftLeft 0xA 0xB) := by decide
theorem test_decode_draw_and_keys :
    decode 0b1101_0000_1010_0100 = some (.draw 0x0 0xA 0x4) ∧ decode 0b1110_1111_1001_1110 = some (.skipIfKeyDown 0xF) ∧
    decode 0b1110_0101_1010_0001 = some (.skipIfKeyUp 0x5) := by decide
theorem test_decode_groupF :
    decode 0xF007 = some (.getDelay 0x0) ∧ decode 0xF30A = some (.waitKey 0x3) ∧ decode 0xF015 = some (.setDelay 0x0) ∧
    decode 0xF018 = some (.setSound 0x0) ∧ decode 0xF21E = some (.addIndex 0x2) ∧ decode 0xF529 = some (.fontAddr 0x5) ∧
    decode 0xF033 = some (.bcd 0x0) ∧ decode 0xF155 = some (.storeRegs 0x1) ∧
    decode 0b1111_1111_0110_0101 = some (.loadRegs 0xF) := by decide
theorem test_decode_undefined :
    [0x8008, 0x800D, 0x800F, 0xE19F, 0xE0A2, 0xE000, 0xF000, 0xF0FF, 0xF108, 0xF130].map decode =
      List.replicate 10 none := by decide
theorem test_decodeBytes_is_bigEndian :
    decodeBytes [0x6A, 0x42, 0x00] = .ok (.setReg 0xA 0x42, [0x00]) ∧ decodeBytes [0x6A] = .error .truncated ∧
    decodeBytes [0x80, 0x08] = .error (.undefinedWord 0x8008) := ⟨rfl, rfl, rfl⟩
theorem test_decodeTableWord : decodeTableWord 16 0x8AB4 = some (.addRegToReg 0xA 0xB) ∧ decodeTableWord 16 0x8008 = none := by
  decide
theorem test_tag_index : Tag.machineRoutine.index = 0 ∧ Tag.loadRegs.index = 34 ∧ Tag.undefined.index = 35 := by decide
theorem test_assembly_text :
    wordText 0x8014 = "ADD V0, V1" ∧ wordText 0xD125 = "DRW V1, V2, 5" ∧ wordText 0x912F = "SNE V1, V2" ∧
    wordText 0x8AB8 = ".word 0x8AB8" := by decide

/-! ## One step on a small state -/

/-- The next state or report of an outcome. -/
def nextOf {α : Type} : Host.Outcome α Fault Refusal → Option α
  | .next t => some t
  | _ => none

/-- The state after one step that runs a word from the start state, the word placed at PC. -/
def after (s : State) (w : Nat) : Option State := nextOf (step (s.withFetchWord 16 w))

/-- The reset state with values in V registers. -/
def regs (l : List (Nibble × Byte)) : State := l.foldl (fun s p => s.setV p.1 p.2) State.reset

/-- A state with another configuration. -/
def under (c : Config) (s : State) : State := { s with config := c }

/-- The reset state with a byte at 0x300, I = 0x300 and values in V registers. -/
def sprite (b : Byte) (l : List (Nibble × Byte)) : State := ((regs l).setI 0x300).writeByte 0x300 b

/-- PC and VF of a state. -/
def pcVf (t : State) : Word × Byte := (t.pc, t.getV 0xF)

/-- A register and VF of a state. -/
def rVf (x : Nibble) (t : State) : Byte × Byte := (t.getV x, t.getV 0xF)

/-! ### Section 2.2: fetch and dispatch -/

theorem test_machineRoutine : (after State.reset 0x0123).map (fun t => (t.pc, t.runstate)) = some (0x202, .running) := by
  decide
theorem test_undefined_is_noOp : (after State.reset 0x8008).map (fun t => (t.pc, t.runstate)) = some (0x202, .running) := by
  decide
theorem test_undefined_report :
    nextOf ((State.reset.withFetchWord 16 0x8008).stepReport 0 0) =
      some (.executed 0x200 0x8008 ⟨.undefined, 0, 0, 8, 0x08, 0x008⟩) := by decide
theorem test_fetch_at_FFF_faults : nextOf ((State.reset.setPc 0xFFF).stepCore 0 0) = some
    { State.reset.setPc 0xFFF with runstate := .faulted, fault := some ⟨.fetchOutOfRange, 0xFFF, 0x0000, 0x1000⟩ } := by
  decide
theorem test_fetch_at_1000_faults : nextOf ((State.reset.setPc 0x1000).stepCore 0 0) = some
    { State.reset.setPc 0x1000 with runstate := .faulted, fault := some ⟨.fetchOutOfRange, 0x1000, 0x0000, 0x1000⟩ } := by
  decide
theorem test_blocked_step :
    nextOf ((State.reset.setRunstate (.awaitingKey 0x3)).stepReport 0x0004 0) = some .blocked := by decide

/-! ### Section 2.3: control flow -/

/-- SP = 1 and stack[0] = 0x204. -/
def calledOnce : State := (State.reset.setPc 0x204).push 0x204 (by decide) |>.setPc 0x200

theorem test_ret : (after calledOnce 0x00EE).map (fun t => (t.pc, t.sp.val, t.stack.get 0)) = some (0x204, 0, 0x204) := by
  decide
theorem test_ret_underflow : (after State.reset 0x00EE).map (fun t => (t.pc, t.fault)) =
    some (0x202, some ⟨.stackUnderflow, 0x200, 0x00EE, 0⟩) := by decide
theorem test_jump : (after State.reset 0x1ABC).map (·.pc) = some 0xABC := by decide
theorem test_call : (after State.reset 0x2300).map (fun t => (t.stack.get 0, t.sp.val, t.pc)) = some (0x202, 1, 0x300) := by
  decide
theorem test_call_overflow : (after { State.reset with sp := 16 } 0x2300).map (fun t => (t.pc, t.sp.val, t.fault)) =
    some (0x202, 16, some ⟨.stackOverflow, 0x200, 0x2300, 16⟩) := by decide
theorem test_skipIfEqual : (after (regs [(0xA, 0x42)]) 0x3A42).map (·.pc) = some 0x204 ∧
    (after (regs [(0xA, 0x41)]) 0x3A42).map (·.pc) = some 0x202 := by decide
theorem test_skipIfNotEqual : (after (regs [(0x3, 0x10)]) 0x4311).map (·.pc) = some 0x204 ∧
    (after (regs [(0x3, 0x10)]) 0x4310).map (·.pc) = some 0x202 := by decide
theorem test_skipIfRegEqual : (after (regs [(0x1, 7), (0x2, 7)]) 0x5120).map (·.pc) = some 0x204 ∧
    (after (regs [(0x1, 7), (0x2, 8)]) 0x512F).map (·.pc) = some 0x202 := by decide
theorem test_skipIfRegNotEqual : (after (regs [(0x1, 7), (0x2, 8)]) 0x9125).map (·.pc) = some 0x204 ∧
    (after State.reset 0x9110).map (·.pc) = some 0x202 := by decide
theorem test_jumpOffset : (after (regs [(0x0, 0x10)]) 0xB300).map (·.pc) = some 0x310 ∧
    (after (regs [(0x0, 0x01)]) 0xBFFF).map (·.pc) = some 0x1000 := by decide
theorem test_jumpOffset_vx : (after (under { defaultConfig with jumpOffsetReg := .vx } (regs [(0x0, 0x10), (0x3, 0x20)])) 0xB300).map
    (·.pc) = some 0x320 := by decide

/-! ### Section 2.4: the ALU -/

theorem test_setReg : (after State.reset 0x6F07).map pcVf = some (0x202, 0x07) := by decide
theorem test_addImmediate : (after (regs [(0x0, 2), (0xF, 9)]) 0x70FF).map (rVf 0x0) = some (0x01, 9) := by decide
theorem test_setRegToReg : (after (regs [(0x1, 0x33)]) 0x8010).map (rVf 0x0) = some (0x33, 0) := by decide
theorem test_or : (after (regs [(0x0, 1), (0xF, 0x10)]) 0x8F01).map (rVf 0xF) = some (0x11, 0x11) := by decide
theorem test_and : (after (regs [(0x0, 0xF0), (0x1, 0x3C)]) 0x8012).map (rVf 0x0) = some (0x30, 0) := by decide
theorem test_xor : (after (regs [(0x0, 0xF0), (0x1, 0x3C)]) 0x8013).map (rVf 0x0) = some (0xCC, 0) := by decide
theorem test_addRegToReg : (after (regs [(0x0, 0xFF), (0x1, 0x02)]) 0x8014).map (rVf 0x0) = some (0x01, 1) ∧
    (after (regs [(0xF, 0xFF), (0x1, 0x02)]) 0x8F14).map (rVf 0xF) = some (1, 1) := by decide
theorem test_addRegToReg_reference : (after (under { defaultConfig with arithVf := .reference }
    (regs [(0x0, 0xFF), (0x1, 0x02), (0xF, 7)])) 0x8014).map (rVf 0x0) = some (0x01, 7) := by decide
theorem test_subRegFromReg : (after (regs [(0x0, 5), (0x1, 5)]) 0x8015).map (rVf 0x0) = some (0x00, 1) ∧
    (after (regs [(0x0, 3), (0x1, 5)]) 0x8015).map (rVf 0x0) = some (0xFE, 0) := by decide
theorem test_subReverse : (after (regs [(0x0, 5), (0x1, 3)]) 0x8017).map (rVf 0x0) = some (0xFE, 0) ∧
    (after (regs [(0x0, 3), (0x1, 5)]) 0x8017).map (rVf 0x0) = some (0x02, 1) := by decide
theorem test_shiftRight : (after (regs [(0x0, 0x05), (0x1, 0x80)]) 0x8016).map (rVf 0x0) = some (0x02, 1) ∧
    (after (regs [(0xF, 0x03)]) 0x8F06).map (rVf 0xF) = some (1, 1) := by decide
theorem test_shiftRight_vy : (after (under { defaultConfig with shiftSrc := .vy } (regs [(0x0, 0x05), (0x1, 0x80)])) 0x8016).map
    (rVf 0x0) = some (0x40, 0) := by decide
theorem test_shiftLeft : (after (regs [(0x0, 0x81)]) 0x801E).map (rVf 0x0) = some (0x02, 1) := by decide
theorem test_shiftLeft_vy : (after (under { defaultConfig with shiftSrc := .vy } (regs [(0x0, 0x81), (0x1, 0x40)])) 0x801E).map
    (rVf 0x0) = some (0x80, 0) := by decide
theorem test_setRand : (after (State.reset.sampleInputs 0 0xAB) 0xC30F).map (rVf 0x3) = some (0x0B, 0) := by decide

/-! ### Section 2.5: index and memory -/

theorem test_setIndex : (after State.reset 0xA123).map (·.i) = some 0x123 := by decide
theorem test_addIndex : (after ((regs [(0x0, 1)]).setI 0xFFF) 0xF01E).map (fun t => (t.i, t.getV 0xF)) = some (0x1000, 0) ∧
    (after ((regs [(0x0, 1)]).setI 0xFFFF) 0xF01E).map (·.i) = some 0x0000 := by decide
theorem test_fontAddr : (after (regs [(0x0, 0x1A)]) 0xF029).map (·.i) = some 0x082 ∧
    (after (regs [(0x0, 0x0F)]) 0xF029).map (·.i) = some 0x09B := by decide
theorem test_bcd : (after ((regs [(0x0, 255)]).setI 0x300) 0xF033).map (·.readBytes 0x300 3) = some [2, 5, 5] := by
  decide
theorem test_bcd_edge : (after ((regs [(0x0, 1)]).setI 0xFFD) 0xF033).map (·.readBytes 0xFFD 3) = some [0, 0, 1] ∧
    (after ((regs [(0x0, 1)]).setI 0xFFE) 0xF033).map (·.fault) =
      some (some ⟨.memWriteOutOfRange, 0x200, 0xF033, 0x1000⟩) := by decide
theorem test_storeRegs_incI : (after (under { defaultConfig with lsIncI := true }
    ((regs [(0x0, 1), (0x1, 2), (0x2, 3)]).setI 0x300)) 0xF255).map (fun t => (t.readBytes 0x300 4, t.i)) =
    some ([1, 2, 3, 0], 0x303) := by decide
theorem test_storeRegs_edge : (after ((regs [(0x0, 1), (0xF, 16)]).setI 0xFF0) 0xFF55).map
      (fun t => (t.readByte 0xFF0, t.readByte 0xFFF, t.i)) = some (1, 16, 0xFF0) ∧
    (after ((regs []).setI 0xFF1) 0xFF55).map (·.fault) =
      some (some ⟨.memWriteOutOfRange, 0x200, 0xFF55, 0x1000⟩) := by decide
theorem test_loadRegs : (after ((regs [(0x3, 9)]).setI 0x050) 0xF265).map
    (fun t => (t.getV 0, t.getV 1, t.getV 2, t.getV 3, t.i)) = some (0xF0, 0x90, 0x90, 9, 0x050) := by decide
theorem test_loadRegs_edge : (after ((regs []).setI 0x1234) 0xF065).map (·.fault) =
      some (some ⟨.memReadOutOfRange, 0x200, 0xF065, 0x1234⟩) ∧
    (after ((regs []).setI 0xFFF) 0xF065).map (·.fault) = some none := by decide

/-! ### Section 2.6: the display -/

theorem test_clearScreen : (after (State.reset.setDisp ((Display.clear.toggle 0 0).toggle 31 63)) 0x00E0).map (·.disp) =
    some Display.clear := by decide
theorem test_draw_wraps : (after (sprite 0xC1 [(0x0, 62), (0x1, 31), (0xF, 7)]) 0xD011).map (fun t => (t.disp, t.getV 0xF)) =
    some (((Display.clear.toggle 31 62).toggle 31 63).toggle 31 5, 0) := by decide
theorem test_draw_clips : (after (under { defaultConfig with drawEdge := .clip } (sprite 0xC1 [(0x0, 62), (0x1, 31)])) 0xD011).map
    (·.disp) = some ((Display.clear.toggle 31 62).toggle 31 63) := by decide
theorem test_draw_collides : (after ((sprite 0x80 []).setDisp (Display.clear.toggle 0 0)) 0xD001).map
    (fun t => (t.disp, t.getV 0xF)) = some (Display.clear, 1) := by decide
theorem test_draw_corners : (after (sprite 0x80 [(0xF, 5)]) 0xDF01).map (fun t => (t.disp, t.getV 0xF)) =
      some (Display.clear.toggle 0 5, 0) ∧
    (after ((regs [(0xF, 1)]).setI 0xFFF) 0xD012).map (fun t => (t.getV 0xF, t.fault)) =
      some (1, some ⟨.memReadOutOfRange, 0x200, 0xD012, 0x1000⟩) ∧
    (after ((regs [(0xF, 1)]).setI 0xFFFF) 0xD010).map (fun t => (t.getV 0xF, t.fault)) = some (0, none) := by decide

/-! ### Section 2.7: timers and keys -/

/-- V4 = 0xB, with the keys given as KEYS of the step. -/
def key4 (keys : BitVec 16) : State := (regs [(0x4, 0xB)]).sampleInputs keys 0

theorem test_skipIfKeyDown : (after (key4 0x0800) 0xE49E).map (·.pc) = some 0x204 ∧
    (after (key4 0xF7FF) 0xE49E).map (·.pc) = some 0x202 := by decide
theorem test_skipIfKeyUp : (after (key4 0x0800) 0xE4A1).map (·.pc) = some 0x202 ∧
    (after (key4 0xF7FF) 0xE4A1).map (·.pc) = some 0x204 := by decide
theorem test_key_outOfRange : (after (regs [(0x4, 0x10)]) 0xE49E).map (·.fault) =
    some (some ⟨.keyOutOfRange, 0x200, 0xE49E, 0x10⟩) := by decide
theorem test_getDelay : (after (State.reset.setDt 0x39) 0xF107).map (fun t => (t.getV 1, t.dt)) = some (0x39, 0x39) := by
  decide
theorem test_waitKey : (after State.reset 0xF30A).map (fun t => (t.runstate, t.pc)) = some (.awaitingKey 0x3, 0x202) := by
  decide
theorem test_setDelay : (after (regs [(0x0, 60)]) 0xF015).map (fun t => (t.dt, t.st)) = some (60, 0) := by decide
theorem test_setSound : (after (regs [(0x0, 60)]) 0xF018).map (fun t => (t.dt, t.st, t.soundActive)) = some (0, 60, true) := by
  decide
theorem test_tickTimers : (((State.reset.setDt 0).setSt 5).tickTimers.dt, ((State.reset.setDt 0).setSt 5).tickTimers.st) =
    (0, 4) := by decide
theorem test_deliverKeyEvent :
    (((State.reset.setRunstate (.awaitingKey 0xF)).deliverKeyEvent 7).getV 0xF,
      ((State.reset.setRunstate (.awaitingKey 0xF)).deliverKeyEvent 7).runstate) = (0x07, .running) ∧
    State.reset.deliverKeyEvent 5 = State.reset := by decide

/-! ### Section 2.8: reset and ROM load -/

/-- A FAULTED state with a byte over the font and a program byte. -/
def faultedState : State :=
  ((State.reset.writeByte 0x050 0x12).writeByte 0x200 0x34).enterFault .stackOverflow 0x200 0x2300 16

theorem test_reset_of_faulted : faultedState.resetBlock = State.reset := by decide
theorem test_font_after_reset : State.reset.readBytes 0x050 5 = [0xF0, 0x90, 0x90, 0x90, 0xF0] ∧
    State.reset.readBytes 0x09B 5 = [0xF0, 0x80, 0xF0, 0x80, 0x80] ∧ State.reset.readByte 0x04F = 0 ∧
    State.reset.readByte 0x0A0 = 0 := by decide
theorem test_loadRom_faulted :
    ((faultedState.loadRom [0x12, 0x00]).readBytes 0x200 2, (faultedState.loadRom [0x12, 0x00]).runstate) =
      ([0x12, 0x00], .faulted) := by decide
theorem test_loadRom_replies : loadRomReply [] = .ok ∧ loadRomReply (List.replicate 3584 0) = .ok ∧
    loadRomReply (List.replicate 3585 0) = .rejected := by
  simp only [loadRomReply, List.length_replicate]
  decide

/-! ## Witnesses: concrete states and operands that meet the hypotheses of each obligation, clause by clause, at boundary
values. Clauses that hold of every state (or of every instruction) have none. -/

/-- The outcome of an instruction, where it is a next state. -/
def ran (i : Instr) (s : State) : Option State := nextOf (exec i s)

theorem ran_spec {i : Instr} {s : State} : ∃ t, exec i s = .next t := exec_next i s

/-! ### The decoder -/

theorem witness_DecodeInvertsEncode : (Instr.machineRoutine 0x0DF).wellFormed = true ∧
    (Instr.machineRoutine 0xFFF).wellFormed = true ∧ (Instr.draw 0xF 0xF 0x0).wellFormed = true := by decide
theorem witness_EncodeInvertsDecode : decode 0x00E1 = some (.machineRoutine 0x0E1) ∧ decode 0xFF65 = some (.loadRegs 0xF) := by
  decide
theorem witness_UndefinedWordsAreExactlyListed :
    (leadOf 0x8008 = 0x8 ∧ nOf 0x8008 ∈ [0x8#4, 0x9, 0xA, 0xB, 0xC, 0xD, 0xF]) ∧
    (leadOf 0xE09F = 0xE ∧ nnOf 0xE09F ∉ [0x9E#8, 0xA1]) ∧
    (leadOf 0xF066 = 0xF ∧ nnOf 0xF066 ∉ [0x07#8, 0x0A, 0x15, 0x18, 0x1E, 0x29, 0x33, 0x55, 0x65]) := by decide
theorem witness_OpcodeTableAgreesWithDecoder :
    leadOf 0x0000 = 0x0#4 ∧ (0x0000#16 ≠ 0x00E0#16 ∧ 0x0000#16 ≠ 0x00EE#16) ∧ decodeTag 0xFFFF = .undefined := by decide

/-! ### The cycle driver -/

/-- SetReg at the last address a fetch can read. -/
def atEnd : State := (State.reset.setPc 0xFFE).withFetchWord 16 0x6A42

theorem witness_StepRunsTheDecodedInstruction :
    atEnd.nextRequest = .step 0 0 ∧ atEnd.runstate = .running ∧ atEnd.pc.toNat + 1 = 0xFFF ∧
    decode atEnd.fetchWord = some (.setReg 0xA 0x42) := by decide
theorem witness_UndefinedWordIsNoOp :
    ((State.reset.setPc 0xFFE).withFetchWord 16 0x8008).runstate = .running ∧
    ((State.reset.setPc 0xFFE).withFetchWord 16 0x8008).pc.toNat + 1 = 0xFFF ∧
    decodeTag ((State.reset.setPc 0xFFE).withFetchWord 16 0x8008).fetchWord = .undefined := by decide
theorem witness_FetchOutOfRangeFaults :
    (State.reset.setPc 0xFFF).runstate = .running ∧ 0xFFF < (State.reset.setPc 0xFFF).pc.toNat + 1 ∧
    ¬ 0xFFF < (State.reset.setPc 0xFFF).pc.toNat ∧ 0xFFF < (State.reset.setPc 0x10FE).pc.toNat := by decide
theorem witness_StepBlocksWhileAwaitingKey : (State.reset.setRunstate (.awaitingKey 0xF)).runstate = .awaitingKey 0xF := by decide
theorem witness_FaultIsStickyUntilReset :
    faultedState.runstate = .faulted ∧ Request.tickTimers ≠ .reset ∧
    nextOf (faultedState.transact .tickTimers) = some faultedState.tickTimers ∧
    (List.replicate 3584 (0 : Byte)).length ≤ 3584 ∧ 3584 < (List.replicate 3585 (0 : Byte)).length :=
  ⟨rfl, by decide, rfl, List.length_replicate.le, List.length_replicate.ge⟩
theorem witness_StepReportsWhatRan :
    (State.reset.runstate = .running ∧
      (nextOf (State.reset.stepCore 0 0)).map (·.runstate) = some .running) ∧
    (nextOf ((State.reset.setPc 0xFFF).stepCore 0 0)).map (·.runstate) = some .faulted := by decide

/-! ### Faults -/

theorem witness_HandlersFaultExactlyByTheTable_faults :
    State.reset.runstate ≠ .faulted ∧ faultOf .ret State.reset = some (.stackUnderflow, 0) ∧
    faultOf (.call 0x300) { State.reset with sp := 16 } = some (.stackOverflow, 16) ∧
    faultOf (.draw 0 0 2) (State.reset.setI 0xFFF) = some (.memReadOutOfRange, 0x1000) ∧
    faultOf (.loadRegs 0xF) (State.reset.setI 0xFF1) = some (.memReadOutOfRange, 0x1000) ∧
    faultOf (.bcd 0) (State.reset.setI 0xFFFF) = some (.memWriteOutOfRange, 0xFFFF) ∧
    faultOf (.storeRegs 0x0) (State.reset.setI 0x1000) = some (.memWriteOutOfRange, 0x1000) ∧
    faultOf (.skipIfKeyDown 0) (State.reset.setV 0 16) = some (.keyOutOfRange, 16) ∧
    faultOf (.skipIfKeyUp 0) (State.reset.setV 0 255) = some (.keyOutOfRange, 255) := by decide
theorem witness_HandlersFaultExactlyByTheTable_none :
    faultOf .ret calledOnce = none ∧ faultOf (.call 0x300) { State.reset with sp := 15 } = none ∧
    faultOf (.draw 0 0 0) (State.reset.setI 0xFFFF) = none ∧ faultOf (.draw 0 0 1) (State.reset.setI 0xFFF) = none ∧
    faultOf (.loadRegs 0xF) (State.reset.setI 0xFF0) = none ∧ faultOf (.bcd 0) (State.reset.setI 0xFFD) = none ∧
    faultOf (.storeRegs 0x0) (State.reset.setI 0xFFF) = none ∧
    faultOf (.skipIfKeyDown 0) (State.reset.setV 0 15) = none ∧ faultOf (.jump 0xFFF) State.reset = none := by decide
theorem witness_FaultsArePrecise :
    ((State.reset.withFetchWord 16 0x00EE).runstate = .running ∧
      (nextOf ((State.reset.withFetchWord 16 0x00EE).stepCore 0 0)).map (·.runstate) = some .faulted) ∧
    (nextOf ((State.reset.setPc 0x1000).stepCore 0 0)).map (·.runstate) = some .faulted := by decide

/-! ### Invariants -/

/-- A FAULTED state that meets the invariant, as the fetch at 0x1000 leaves it. -/
def fetchFaulted : State := (State.reset.setPc 0x1000).enterFault .fetchOutOfRange 0x1000 0 0x1000

theorem witness_InvariantKeptByEveryStep :
    fetchFaulted.Inv ∧ ∃ t, step fetchFaulted = .next t := by
  refine ⟨⟨Memory.wf_nil _, by decide, by decide, by decide, ?_⟩, ⟨_, rfl⟩⟩
  intro r h
  cases h
  exact ⟨rfl, by decide, by decide⟩
theorem witness_ConfigurationIsFixed :
    (∃ t, State.reset.transact .tickTimers = .next t) ∧ ∃ t, exec (.setReg 0xF 0xFF) State.reset = .next t :=
  ⟨⟨_, rfl⟩, ⟨_, rfl⟩⟩

/-! ### Which instructions reach which state -/

theorem witness_OnlyCallAndReturnUseTheStack : Instr.jump 0xFFF ≠ .ret ∧ (∀ nnn, Instr.jump 0xFFF ≠ .call nnn) ∧
    ∃ t, exec (.jump 0xFFF) State.reset = .next t := ⟨by simp, by simp, ⟨_, rfl⟩⟩
theorem witness_OnlyTimerInstructionsUseTheTimers :
    ((∀ x, Instr.setSound 0x0 ≠ .setDelay x) ∧ (∀ x, Instr.setSound 0x0 ≠ .getDelay x) ∧
      ∃ t, exec (.setSound 0x0) State.reset = .next t) ∧
    ((∀ x, Instr.setDelay 0x0 ≠ .setSound x) ∧ ∃ t, exec (.setDelay 0x0) State.reset = .next t) ∧
    ∃ t, exec (.getDelay 0xF) State.reset = .next t :=
  ⟨⟨by simp, by simp, ⟨_, rfl⟩⟩, ⟨by simp, ⟨_, rfl⟩⟩, ⟨_, rfl⟩⟩
theorem witness_OnlyClearAndDrawUseTheDisplay : Instr.storeRegs 0xF ≠ .clearScreen ∧
    (∀ x y n, Instr.storeRegs 0xF ≠ .draw x y n) ∧ ∃ t, exec (.storeRegs 0xF) State.reset = .next t :=
  ⟨by simp, by simp, ran_spec⟩
theorem witness_OnlyFourInstructionsTouchMemory :
    ((∀ x y n, Instr.addIndex 0x0 ≠ .draw x y n) ∧ (∀ x, Instr.addIndex 0x0 ≠ .bcd x) ∧
      (∀ x, Instr.addIndex 0x0 ≠ .storeRegs x) ∧ (∀ x, Instr.addIndex 0x0 ≠ .loadRegs x) ∧
      ∃ t, exec (.addIndex 0x0) State.reset = .next t) ∧
    ((∀ x, Instr.draw 0x0 0x1 0x5 ≠ .bcd x) ∧ (∀ x, Instr.draw 0x0 0x1 0x5 ≠ .storeRegs x) ∧
      ∃ t, exec (.draw 0x0 0x1 0x5) State.reset = .next t) :=
  ⟨⟨by simp, by simp, by simp, by simp, ⟨_, rfl⟩⟩, ⟨by simp, by simp, ran_spec⟩⟩
theorem witness_OnlyIndexInstructionsUseI :
    ((∀ nnn, Instr.storeRegs 0x0 ≠ .setIndex nnn) ∧ (∀ x, Instr.storeRegs 0x0 ≠ .addIndex x) ∧
      (∀ x, Instr.storeRegs 0x0 ≠ .fontAddr x) ∧ State.reset.config.lsIncI = false ∧
      ∃ t, exec (.storeRegs 0x0) State.reset = .next t) ∧
    ((∀ nnn, Instr.call 0x0 ≠ .setIndex nnn) ∧ (∀ x, Instr.call 0x0 ≠ .addIndex x) ∧ (∀ x, Instr.call 0x0 ≠ .fontAddr x) ∧
      (∀ x y n, Instr.call 0x0 ≠ .draw x y n) ∧ (∀ x, Instr.call 0x0 ≠ .bcd x) ∧ (∀ x, Instr.call 0x0 ≠ .storeRegs x) ∧
      (∀ x, Instr.call 0x0 ≠ .loadRegs x) ∧ ∃ t, exec (.call 0x0) State.reset = .next t) ∧
    ((∃ nnn, Instr.setIndex 0xFFF = .setIndex nnn) ∧ ∃ t, exec (.setIndex 0xFFF) State.reset = .next t) ∧
    ((∃ x, Instr.fontAddr 0xF = .fontAddr x) ∧ ∃ t, exec (.fontAddr 0xF) State.reset = .next t) :=
  ⟨⟨by simp, by simp, by simp, rfl, ran_spec⟩, ⟨by simp, by simp, by simp, by simp, by simp, by simp, by simp, ran_spec⟩,
    ⟨⟨_, rfl⟩, ran_spec⟩, ⟨⟨_, rfl⟩, ran_spec⟩⟩
theorem witness_OnlyThreeInstructionsReadTheInputs :
    ((∀ x, Instr.setRand 0x0 0xFF ≠ .skipIfKeyDown x) ∧ (∀ x, Instr.setRand 0x0 0xFF ≠ .skipIfKeyUp x) ∧
      ∃ t, exec (.setRand 0x0 0xFF) State.reset = .next t) ∧
    ((∀ x nn, Instr.skipIfKeyUp 0x0 ≠ .setRand x nn) ∧ ∃ t, exec (.skipIfKeyUp 0x0) State.reset = .next t) :=
  ⟨⟨by simp, by simp, ⟨_, rfl⟩⟩, ⟨by simp, ran_spec⟩⟩
theorem witness_VfIsWrittenOnlyByItsWriters :
    (ran (.addRegToReg 0x0 0x1) (regs [(0x0, 0xFF), (0x1, 0x01)])).map (·.getV 0xF) = some 1 ∧
    (regs [(0x0, 0xFF), (0x1, 0x01)]).getV 0xF = 0 := by decide

/-! ### Control transfer -/

theorem witness_MachineRoutineIsNoOp : (0x0E1#12 ≠ 0x0E0#12 ∧ 0x0E1#12 ≠ 0x0EE#12) ∧ (0x000#12 ≠ 0x0E0#12 ∧ 0x000#12 ≠ 0x0EE#12) := by
  decide
theorem witness_CallPushesAndJumps : ({ State.reset with sp := 15 } : State).sp.val < 16 ∧
    ({ State.reset with sp := 16 } : State).sp.val = 16 := by decide
theorem witness_ReturnPopsPc : ({ State.reset with sp := 1 } : State).sp.val = (0 : Fin 16).val + 1 ∧
    ({ State.reset with sp := 16 } : State).sp.val = (15 : Fin 16).val + 1 ∧ State.reset.sp.val = 0 := by decide
theorem witness_ReturnUndoesCall : ∃ (s t : State) (h : s.sp.val < 16), s.sp.val = 15 ∧ exec (.call 0x300) s = .next t ∧
    (t.setV 0xF 1).sp = t.sp ∧ (t.setV 0xF 1).stack.get ⟨s.sp.val, h⟩ = t.stack.get ⟨s.sp.val, h⟩ :=
  ⟨{ State.reset with sp := 15 }, _, by decide, rfl, rfl, rfl, rfl⟩
theorem witness_JumpOffsetAddsTheRegister : State.reset.config.jumpOffsetReg = .v0 ∧
    (under { defaultConfig with jumpOffsetReg := .vx } State.reset).config.jumpOffsetReg = .vx := by decide

/-! ### Register operations -/

theorem witness_ArithmeticFollowsArithVf : State.reset.config.arithVf = .canonical ∧ (0xE#4 : Nibble) ≠ 0xF ∧
    (under { defaultConfig with arithVf := .reference } State.reset).config.arithVf = .reference := by decide
theorem witness_ShiftsStoreTheBitShiftedOut : (0x81 : Byte) = (if (regs [(0x0, 0x81)]).config.shiftSrc = .vx
    then (regs [(0x0, 0x81)]).getV 0x0 else (regs [(0x0, 0x81)]).getV 0x1) ∧ (0x0#4 : Nibble) ≠ 0xF := by decide

/-! ### Index and memory -/

theorem witness_BcdStoresThreeDigits : (State.reset.setI 0xFFD).i.toNat + 2 ≤ 0xFFF ∧ 0xFFF < (State.reset.setI 0xFFE).i.toNat + 2 := by
  decide
theorem witness_StoreRegsStoresTheBlock : (State.reset.setI 0xFF0).i.toNat + (0xF : Nibble).toNat ≤ 0xFFF ∧
    0xFFF < (State.reset.setI 0xFF1).i.toNat + (0xF : Nibble).toNat ∧ (0xF : Nibble).toNat ≤ (0xF : Nibble).toNat := by decide
theorem witness_LoadRegsLoadsTheBlock : (State.reset.setI 0xFFF).i.toNat + (0x0 : Nibble).toNat ≤ 0xFFF ∧
    0xFFF < (State.reset.setI 0x1000).i.toNat + (0x0 : Nibble).toNat ∧ (0x0 : Nibble).toNat ≤ (0x0 : Nibble).toNat := by decide
theorem witness_LoadRestoresWhatStoreSaved : ∃ t, (State.reset.setI 0xFF0).i.toNat + (0xF : Nibble).toNat ≤ 0xFFF ∧
    exec (.storeRegs 0xF) (State.reset.setI 0xFF0) = .next t ∧ (t.setI 0xFF0).mem = t.mem ∧
    (t.setI 0xFF0).config = t.config ∧ (t.setI 0xFF0).i = (State.reset.setI 0xFF0).i := ⟨_, by decide, rfl, rfl, rfl, rfl⟩
theorem witness_ReadReturnsTheLastWrite : (0xFFF : Nat) ≤ 0xFFF ∧ Memory.wf State.reset.config.font State.reset.mem :=
  ⟨by decide, Memory.wf_nil _⟩
theorem witness_CanonicalMemoriesReadingAlikeAreEqual : Memory.wf defaultFont [(0x050, 0x00), (0xFFF, 0x01)] ∧
    ∀ a ≤ 0xFFF, Memory.read defaultFont [(0x050, 0x00), (0xFFF, 0x01)] a = Memory.read defaultFont [(0x050, 0x00), (0xFFF, 0x01)] a :=
  ⟨by decide, fun _ _ => rfl⟩
/-- I and PC at the given addresses. -/
def indexAndPc (i pc : Word) : State := (State.reset.setI i).setPc pc

theorem witness_FetchSeesTheStoredBytes_storeRegs :
    (indexAndPc 0xFF0 0xFFE).i.toNat + (0xF : Nibble).toNat ≤ 0xFFF ∧ (0xE : Nibble).toNat ≤ (0xF : Nibble).toNat ∧
    (indexAndPc 0xFF0 0xFFE).pc.toNat = (indexAndPc 0xFF0 0xFFE).indexAddr (0xE : Nibble).toNat ∧
    (indexAndPc 0xFF0 0xFFE).pc.toNat + 1 = (indexAndPc 0xFF0 0xFFE).indexAddr (0xF : Nibble).toNat := by decide
theorem witness_FetchSeesTheStoredBytes_bcd :
    (indexAndPc 0xFFD 0xFFE).i.toNat + 2 ≤ 0xFFF ∧ (indexAndPc 0xFFD 0xFFE).pc.toNat = (indexAndPc 0xFFD 0xFFE).indexAddr 1 ∧
    (indexAndPc 0xFFD 0xFFE).pc.toNat + 1 = (indexAndPc 0xFFD 0xFFE).indexAddr 2 ∧
    (indexAndPc 0x300 0x2FF).pc.toNat + 1 = (indexAndPc 0x300 0x2FF).indexAddr 0 := by decide
theorem witness_FetchSeesTheStoredBytes_loadRom : (List.replicate 3584 (0 : Byte)).length ≤ 3584 ∧
    State.reset.pc.toNat = 0x200 + 0 ∧ (State.reset.setPc 0xFFE).pc.toNat + 1 = 0x200 + 3583 :=
  ⟨List.length_replicate.le, rfl, rfl⟩

/-! ### Display -/

theorem witness_DrawXorsTheSprite :
    ((0x0 : Nibble) = 0 ∨ (State.reset.setI 0xFFFF).i.toNat + (0x0 : Nibble).toNat - 1 ≤ 0xFFF) ∧
    ((0x1 : Nibble) = 0 ∨ (State.reset.setI 0xFFF).i.toNat + (0x1 : Nibble).toNat - 1 ≤ 0xFFF) ∧
    ((0x2 : Nibble) ≠ 0 ∧ 0xFFF < (State.reset.setI 0xFFF).i.toNat + (0x2 : Nibble).toNat - 1) := by decide
theorem witness_DrawXorsTheSprite_hit :
    SpriteCovers ((sprite 0x80 []).setDisp (Display.clear.toggle 0 0)) 0x0 0x1 0x1 0 0 ∧
    ((sprite 0x80 []).setDisp (Display.clear.toggle 0 0)).disp.pixel 0 0 = true :=
  ⟨⟨0, by decide, 0, by decide, by decide, by decide, by decide⟩, by decide⟩
theorem witness_DrawXorsTheSprite_noHit : ∀ row col, SpriteCovers (sprite 0x80 []) 0x0 0x1 0x1 row col →
    (sprite 0x80 []).disp.pixel row col = false := fun row col _ => Display.pixel_clear row col
theorem witness_DrawTwiceRestoresTheDisplay : (0x0#4 : Nibble) ≠ 0xF ∧
    ((0x1 : Nibble) = 0 ∨ (sprite 0x80 []).i.toNat + (0x1 : Nibble).toNat - 1 ≤ 0xFFF) ∧
    ∃ t, exec (.draw 0x0 0x1 0x1) (sprite 0x80 []) = .next t := ⟨by decide, by decide, ran_spec⟩

/-! ### Timers, keys and the host -/

theorem witness_KeySkipsTestTheKey : ((regs [(0x4, 15)]).getV 0x4).toNat ≤ 15 ∧ 15 < ((regs [(0x4, 16)]).getV 0x4).toNat := by decide
theorem witness_KeyEventCompletesTheWait : (State.reset.setRunstate (.awaitingKey 0xF)).runstate = .awaitingKey 0xF ∧
    State.reset.runstate = .running ∧ faultedState.runstate = .faulted := ⟨rfl, rfl, rfl⟩
theorem witness_WaitIsEnteredAndLeftAsStated :
    ((nextOf ((State.reset.setRunstate (.awaitingKey 0x3)).transact (.deliverKeyEvent 0xB))).map (·.runstate) = some .running) ∧
    ((∀ z, (State.reset.withFetchWord 16 0xF30A).runstate ≠ .awaitingKey z) ∧
      (nextOf ((State.reset.withFetchWord 16 0xF30A).transact (.step 0 0))).map (·.runstate) = some (.awaitingKey 0x3)) :=
  ⟨by decide, ⟨fun _ => by decide +revert, by decide⟩⟩
theorem witness_ResetSetsEveryElement : (0x04F < 0x050 ∨ 0x09F < 0x04F) ∧ (0x0A0 < 0x050 ∨ 0x09F < 0x0A0) := by decide
theorem witness_LoadRomWritesOrRejects : (List.replicate 3584 (0 : Byte)).length ≤ 3584 ∧
    3584 < (List.replicate 3585 (0 : Byte)).length := by simp only [List.length_replicate]; decide
theorem witness_StepServesTheHostInOrder : (State.reset.withFetchWord 16 0x00E0).host.requests = [.step 0 0] ∧
    State.reset.host.requests = [] := by decide
theorem witness_PlacedWordIsFetchedNext : (State.reset.setPc 0xFFE).pc.toNat + 1 ≤ 0xFFF := by decide

end Sys2Proof.Tests
end

section
/-! Scope (`00_scope.md`): every transaction completes (R3), and the inputs KEYS and RAND8 reach only the instructions that
R28 names. -/

namespace Sys2Proof.Machine

/-! ## Every transaction completes -/

/-- Fetch and execute answers a next state: the instruction's, the no-op's, or the fetch fault's. -/
theorem State.fetchExecute_next (s : State) : ∃ t, s.fetchExecute = .next t := by
  rcases s.fetchExecute_cases with ⟨i, _, _, h⟩ | ⟨_, _, h⟩ | ⟨_, h⟩
  · rw [h]; exact exec_next i s.advancePc
  · exact ⟨_, h⟩
  · exact ⟨_, h⟩

theorem State.stepCore_next (s : State) (keys : BitVec 16) (rand8 : Byte) : ∃ t, s.stepCore keys rand8 = .next t := by
  cases h : s.runstate with
  | running => rw [State.stepCore_running h]; exact State.fetchExecute_next _
  | awaitingKey x => exact ⟨s, State.stepCore_awaiting h keys rand8⟩
  | faulted => exact ⟨s, State.stepCore_faulted h keys rand8⟩

theorem State.transact_next (s : State) (r : Request) : ∃ t, s.transact r = .next t := by
  cases r with
  | step keys rand8 => exact s.stepCore_next keys rand8
  | _ => exact ⟨_, rfl⟩

/-- Settles O13: a step ends in the handler of the decoded word, the Undefined no-op, the fetch fault or nothing at all;
every other transaction is a function of the state. -/
theorem everyTransactionCompletes : Obligations.EveryTransactionCompletes :=
  ⟨State.transact_next, fun s => s.takeRequest.transact_next s.nextRequest⟩

/-! ## The inputs: each operation leaves them, and runs the same beside any -/

theorem State.skipIf_sampleInputs (s : State) (c : Bool) (keys : BitVec 16) (rand8 : Byte) :
    (s.sampleInputs keys rand8).skipIf c = (s.skipIf c).sampleInputs keys rand8 := by
  cases c <;> rfl

theorem State.aluRegs_sampleInputs (s : State) (op : AluOp) (x y : Nibble) (keys : BitVec 16) (rand8 : Byte) :
    (s.sampleInputs keys rand8).aluRegs op x y = (s.aluRegs op x y).sampleInputs keys rand8 := by
  simp only [State.aluRegs, State.writeAlu_eq]
  rfl

theorem State.loadV_sampleInputs (s : State) (n : Nat) (bs : List Byte) (keys : BitVec 16) (rand8 : Byte) :
    (s.sampleInputs keys rand8).loadV n bs = (s.loadV n bs).sampleInputs keys rand8 := by
  induction bs generalizing s n with
  | nil => rfl
  | cons b bs ih => exact ih (s.setV (BitVec.ofNat 4 n) b) (n + 1)

/-- A handler that branches on what is no input runs the same beside other inputs when both its branches do. -/
theorem ite_next_sampleInputs {c : Prop} [Decidable c] {a b t : State}
    (h : (if c then .next a else .next b : Result) = .next t) (keys : BitVec 16) (rand8 : Byte) :
    (if c then .next (a.sampleInputs keys rand8) else .next (b.sampleInputs keys rand8) : Result) =
      .next (t.sampleInputs keys rand8) := by
  split at h <;> cases h <;> simp [*]

/-- Neither the range check nor the fault of an access through I reads the inputs. -/
theorem State.throughIndex_sampleInputs {s t effect : State} {i : Instr} {c : FaultCause} {n : Nat}
    (h : s.throughIndex i c n effect = .next t) (keys : BitVec 16) (rand8 : Byte) :
    (s.sampleInputs keys rand8).throughIndex i c n (effect.sampleInputs keys rand8) =
      .next (t.sampleInputs keys rand8) :=
  ite_next_sampleInputs h keys rand8

theorem State.throughIndex_host {s t effect : State} {i : Instr} {c : FaultCause} {n : Nat}
    (h : s.throughIndex i c n effect = .next t) (he : effect.host = s.host) : t.host = s.host := by
  rcases s.throughIndex_cases i c n effect with ⟨_, hn⟩ | ⟨_, hn⟩ <;> rw [hn] at h <;> cases h
  · exact he
  · rfl

/-- No instruction changes the host's side of the state, the inputs of the step among it. -/
theorem exec_host {i : Instr} {s t : State} (h : exec i s = .next t) : t.host = s.host := by
  cases i with
  | ret => simp only [exec, execRet] at h; split at h <;> cases h <;> rfl
  | call nnn => simp only [exec, execCall] at h; split at h <;> cases h <;> rfl
  | skipIfKeyDown x => simp only [exec, execSkipIfKeyDown] at h; split at h <;> cases h <;> simp
  | skipIfKeyUp x => simp only [exec, execSkipIfKeyUp] at h; split at h <;> cases h <;> simp
  | draw | bcd | storeRegs => exact State.throughIndex_host h rfl
  | loadRegs x => exact State.throughIndex_host h (by simp)
  | _ => cases h; simp

/-- R28 for every instruction: it runs the same beside other inputs, unless it is a key skip and KEYS differs or SetRand
and RAND8 differs. -/
theorem exec_sampleInputs {i : Instr} {s t : State} {keys : BitVec 16} {rand8 : Byte}
    (hkeys : keys = s.host.keys ∨ (∀ x, i ≠ .skipIfKeyDown x) ∧ ∀ x, i ≠ .skipIfKeyUp x)
    (hrand : rand8 = s.rand8 ∨ ∀ x nn, i ≠ .setRand x nn) (h : exec i s = .next t) :
    exec i (s.sampleInputs keys rand8) = .next (t.sampleInputs keys rand8) := by
  cases i with
  | ret => exact ite_next_sampleInputs h keys rand8
  | call nnn =>
    simp only [exec, execCall] at h ⊢
    split at h
    · next hsp => cases h; exact dif_pos hsp
    · next hsp => cases h; exact dif_neg hsp
  | skipIfKeyDown x =>
    obtain rfl : keys = s.host.keys := hkeys.resolve_right fun hne => hne.1 x rfl
    simp only [exec, execSkipIfKeyDown, State.skipIf_sampleInputs]
    exact ite_next_sampleInputs h _ rand8
  | skipIfKeyUp x =>
    obtain rfl : keys = s.host.keys := hkeys.resolve_right fun hne => hne.2 x rfl
    simp only [exec, execSkipIfKeyUp, State.skipIf_sampleInputs]
    exact ite_next_sampleInputs h _ rand8
  | setRand x nn =>
    obtain rfl : rand8 = s.rand8 := hrand.resolve_right fun hne => hne x nn rfl
    cases h; rfl
  | skipIfEqual | skipIfNotEqual | skipIfRegEqual | skipIfRegNotEqual =>
    cases h; exact congrArg _ (State.skipIf_sampleInputs ..)
  | setRegToReg | or | and | xor | addRegToReg | subRegFromReg | subReverse | shiftRight | shiftLeft =>
    cases h; exact congrArg _ (State.aluRegs_sampleInputs ..)
  | draw | bcd | storeRegs => exact State.throughIndex_sampleInputs h keys rand8
  | loadRegs x =>
    simp only [exec, execLoadRegs, State.loadV_sampleInputs]
    exact State.throughIndex_sampleInputs h keys rand8
  | _ => cases h; rfl

/-- Settles O25: the inputs are sampled with one of the two as it was, so only a reader of the other is ruled out. -/
theorem onlyThreeInstructionsReadTheInputs : Obligations.OnlyThreeInstructionsReadTheInputs := by
  refine ⟨fun i s t keys hdown hup h => ?_, fun i s t rand8 hrand h => ?_⟩
  · have hr : t.rand8 = s.rand8 := congrArg HostSide.rand8 (exec_host h)
    rw [hr]
    exact exec_sampleInputs (.inr ⟨hdown, hup⟩) (.inl rfl) h
  · rw [exec_host h]
    exact exec_sampleInputs (.inl rfl) (.inr hrand) h

end Sys2Proof.Machine
end

section
/-! The invariant of the block (R43, R50, R361): what each operation needs to keep it, every handler keeps it, and so does
every transaction. -/

namespace Sys2Proof.Machine

/-! ## One lemma per operation -/

section Inv

variable {s t : State}

/-- The invariant speaks of memory, the configuration, PC, the stack, the run state and the fault record only. -/
theorem State.Inv.congr (h : s.Inv) (hmem : t.mem = s.mem := by simp) (hconfig : t.config = s.config := by simp)
    (hpc : t.pc = s.pc := by simp) (hstack : t.stack = s.stack := by simp)
    (hrun : t.runstate = s.runstate := by simp) (hfault : t.fault = s.fault := by simp) : t.Inv where
  mem_wf := by rw [hmem, hconfig]; exact h.mem_wf
  pc_le := hpc ▸ h.pc_le
  slot_le := hstack ▸ h.slot_le
  fault_none := by rw [hfault, hrun]; exact h.fault_none
  fault_genuine := hfault ▸ h.fault_genuine

theorem State.Inv.setPc (h : s.Inv) {a : Word} (ha : a.toNat ≤ 0x10FE) : (s.setPc a).Inv := { h with pc_le := ha }

theorem State.Inv.advancePc (h : s.Inv) (hpc : s.pc.toNat ≤ 0x1000) : s.advancePc.Inv :=
  h.setPc (by bv_omega)

theorem State.Inv.skipIf (h : s.Inv) (hpc : s.pc.toNat ≤ 0x1000) (c : Bool) : (s.skipIf c).Inv := by
  cases c with
  | false => exact h
  | true => exact h.advancePc hpc

theorem State.Inv.push (h : s.Inv) {a : Word} (ha : a.toNat ≤ 0x1000) (hsp : s.sp.val < 16) : (s.push a hsp).Inv :=
  { h with
    slot_le := fun k => by
      simp only [State.push_stack, Vector.get_eq_getElem, Vector.getElem_set]
      split
      · exact ha
      · exact h.slot_le k }

theorem State.Inv.popPc (h : s.Inv) : s.popPc.Inv :=
  { h with
    pc_le := by
      have hle := h.slot_le ⟨s.sp.val - 1, by omega⟩
      rw [State.popPc_pc]
      exact Nat.le_trans hle (by decide) }

/-- A block write in range keeps the invariant. -/
theorem State.Inv.writeBytes (h : s.Inv) {a : Nat} {bs : List Byte} (hb : a + bs.length ≤ memSize) :
    (s.writeBytes a bs).Inv :=
  { h with mem_wf := Memory.wf_writeBlock h.mem_wf hb }

/-- R50: a change among the run states other than FAULTED leaves the fault record NONE. -/
theorem State.Inv.setRunstate (h : s.Inv) (hs : s.runstate ≠ .faulted) {r : RunState} (hr : r ≠ .faulted) :
    (s.setRunstate r).Inv :=
  { h with fault_none := iff_of_true (h.fault_none.2 hs) hr }

/-- R50, R362: entry into a fault fills the record with what R361 gives the cause. -/
theorem State.Inv.enterFault (h : s.Inv) {c : FaultCause} {pc word : Word} {n : Nat}
    (hg : FaultRecord.Genuine ⟨c, pc, word, BitVec.ofNat 17 n⟩) : (s.enterFault c pc word n).Inv :=
  { h with
    fault_none := by simp
    fault_genuine := fun r hr => by cases hr; exact hg }

/-! ## The records of R361 -/

/-- The info of a fault through I is an address out of range, within 16 bits (R90, R361). -/
theorem State.lowestOutOfRange_bounds (s : State) : 0x1000 ≤ s.lowestOutOfRange ∧ s.lowestOutOfRange ≤ 0xFFFF := by
  have := s.i.isLt
  simp only [State.lowestOutOfRange]
  omega

/-- The info of a failed fetch is PC where PC itself is out of range, else PC + 1 (R150, R361). -/
theorem State.genuine_fetchFault (hf : ¬ s.FetchInRange) :
    FaultRecord.Genuine ⟨.fetchOutOfRange, s.pc, 0, BitVec.ofNat 17 s.fetchFaultInfo⟩ := by
  have hpc := s.pc.isLt
  have hge : 0xFFF ≤ s.pc.toNat := by
    simp only [State.FetchInRange, InRange] at hf
    omega
  refine ⟨rfl, hge, ?_⟩
  simp only [State.fetchFaultInfo, BitVec.toNat_ofNat]
  split <;> omega

/-- A fault through I, of either memory cause, is genuine (R361). -/
theorem State.genuine_lowestOutOfRange (s : State) {c : FaultCause} (pc word : Word)
    (hc : c = .memReadOutOfRange ∨ c = .memWriteOutOfRange) :
    FaultRecord.Genuine ⟨c, pc, word, BitVec.ofNat 17 s.lowestOutOfRange⟩ := by
  have hb := s.lowestOutOfRange_bounds
  rcases hc with rfl | rfl <;> simp only [FaultRecord.Genuine, BitVec.toNat_ofNat] <;> omega

/-- The info of a key fault is the byte that names no key (R324, R361). -/
theorem genuine_keyOutOfRange {b : Byte} (hb : b.toNat > 15) (pc word : Word) :
    FaultRecord.Genuine ⟨.keyOutOfRange, pc, word, BitVec.ofNat 17 b.toNat⟩ := by
  have := b.isLt
  simp only [FaultRecord.Genuine, BitVec.toNat_ofNat]
  omega

/-! ## The handlers -/

/-- An access through I keeps the invariant where its effect does, in range; its fault always does. -/
theorem State.Inv.throughIndex (h : s.Inv) {i : Instr} {c : FaultCause} {n : Nat} {effect : State}
    (hc : c = .memReadOutOfRange ∨ c = .memWriteOutOfRange) (he : s.BlockInRange n → effect.Inv)
    (ht : s.throughIndex i c n effect = .next t) : t.Inv := by
  rcases s.throughIndex_cases i c n effect with ⟨hin, hn⟩ | ⟨_, hn⟩ <;> rw [hn] at ht <;> cases ht
  · exact he hin
  · exact h.enterFault (s.genuine_lowestOutOfRange _ _ hc)

/-- A block of at least one byte that passed the range check is written inside memory (R90). -/
theorem State.Inv.writeIndexed (h : s.Inv) {n : Nat} {bs : List Byte} (hb : bs.length = n + 1)
    (hin : s.BlockInRange (n + 1)) : (s.writeBytes (s.indexAddr 0) bs).Inv :=
  h.writeBytes (by simp only [State.BlockInRange, InRange] at hin; simp only [State.indexAddr, hb, memSize]; omega)

/-- A key skip faults where V[x] names no key, and is a skip otherwise (R324, R325). -/
theorem State.Inv.keySkip (h : s.Inv) (hpc : s.pc.toNat ≤ 0x1000) {i : Instr} {b : Byte} {c : Bool}
    (ht : (if b.toNat > 15 then .next (s.raise i .keyOutOfRange b.toNat) else .next (s.skipIf c) : Result) = .next t) :
    t.Inv := by
  split at ht <;> cases ht
  · next hb => exact h.enterFault (genuine_keyOutOfRange hb _ _)
  · exact h.skipIf hpc c

theorem zeroExtend_addr_le (nnn : Addr12) : (nnn.zeroExtend 16).toNat ≤ 0xFFF := by
  have := nnn.isLt
  simp only [BitVec.toNat_setWidth, BitVec.zeroExtend]
  omega

/-- The highest PC of R43: the sum of JumpOffset, 0xFFF + 0xFF, which does not wrap (R187). -/
theorem jumpOffset_target_le (nnn : Addr12) (b : Byte) : (nnn.zeroExtend 16 + b.zeroExtend 16 : Word).toNat ≤ 0x10FE := by
  have := nnn.isLt
  have := b.isLt
  simp only [BitVec.toNat_add, BitVec.toNat_setWidth, BitVec.zeroExtend]
  omega

/-- Every handler keeps the invariant, run as the cycle driver runs it: RUNNING, with PC at most 0x1000 after the fetch's
advance. That bound is what Call pushes and what a skip adds 2 to. -/
theorem exec_inv {i : Instr} (hinv : s.Inv) (hpc : s.pc.toNat ≤ 0x1000) (hrun : s.runstate = .running)
    (h : exec i s = .next t) : t.Inv := by
  cases i with
  | ret =>
    simp only [exec, execRet] at h
    split at h <;> cases h
    · exact hinv.enterFault rfl
    · exact hinv.popPc
  | jump nnn => cases h; exact hinv.setPc (Nat.le_trans (zeroExtend_addr_le nnn) (by decide))
  | call nnn =>
    simp only [exec, execCall] at h
    split at h <;> cases h
    · next hsp => exact (hinv.push hpc hsp).setPc (Nat.le_trans (zeroExtend_addr_le nnn) (by decide))
    · exact hinv.enterFault rfl
  | jumpOffset nnn => cases h; exact hinv.setPc (jumpOffset_target_le nnn _)
  | skipIfEqual | skipIfNotEqual | skipIfRegEqual | skipIfRegNotEqual => cases h; exact hinv.skipIf hpc _
  | skipIfKeyDown | skipIfKeyUp => exact hinv.keySkip hpc h
  | waitKey x => cases h; exact hinv.setRunstate (by simp [hrun]) (by simp)
  | draw x y n => exact hinv.throughIndex (.inl rfl) (fun _ => hinv.congr) h
  | bcd x => exact hinv.throughIndex (.inr rfl) (hinv.writeIndexed rfl) h
  | storeRegs x =>
    exact hinv.throughIndex (.inr rfl) (fun hin => (hinv.writeIndexed (s.regsUpTo_length x) hin).congr) h
  | loadRegs x => exact hinv.throughIndex (.inl rfl) (fun _ => hinv.congr) h
  | _ => cases h; exact hinv.congr

/-! ## The transactions -/

/-- What a step can do: nothing, where the block is not RUNNING; else run the decoded instruction, run the Undefined no-op,
or fault at the fetch, with the inputs sampled (R150 to R152). -/
theorem State.stepCore_cases {keys : BitVec 16} {rand8 : Byte} (h : s.stepCore keys rand8 = .next t) :
    t = s ∨ s.runstate = .running ∧
      ((∃ i, s.FetchInRange ∧ exec i (s.sampleInputs keys rand8).advancePc = .next t) ∨
        s.FetchInRange ∧ t = (s.sampleInputs keys rand8).advancePc ∨
        ¬ s.FetchInRange ∧
          t = (s.sampleInputs keys rand8).enterFault .fetchOutOfRange s.pc 0 s.fetchFaultInfo) := by
  cases hrun : s.runstate with
  | awaitingKey x => rw [State.stepCore_awaiting hrun] at h; cases h; exact .inl rfl
  | faulted => rw [State.stepCore_faulted hrun] at h; cases h; exact .inl rfl
  | running =>
    rw [State.stepCore_running hrun] at h
    refine .inr ⟨rfl, ?_⟩
    rcases (s.sampleInputs keys rand8).fetchExecute_cases with ⟨i, hf, _, he⟩ | ⟨hf, _, he⟩ | ⟨hf, he⟩ <;> rw [he] at h
    · exact .inl ⟨i, hf, h⟩
    · cases h; exact .inr (.inl ⟨hf, rfl⟩)
    · cases h; exact .inr (.inr ⟨hf, rfl⟩)

/-- A step keeps the invariant: a fetch in range ends with PC at most 0x1000, as the handlers need it. -/
theorem stepCore_inv (hinv : s.Inv) {keys : BitVec 16} {rand8 : Byte} (h : s.stepCore keys rand8 = .next t) : t.Inv := by
  have hin : (s.sampleInputs keys rand8).Inv := hinv.congr
  have hadv (hf : s.FetchInRange) : (s.pc + 2).toNat ≤ 0x1000 := by
    simp only [State.FetchInRange, InRange] at hf
    bv_omega
  have hfetched (hf : s.FetchInRange) : (s.sampleInputs keys rand8).advancePc.Inv :=
    hin.setPc (Nat.le_trans (hadv hf) (by decide))
  rcases State.stepCore_cases h with rfl | ⟨hrun, ⟨i, hf, he⟩ | ⟨hf, rfl⟩ | ⟨hf, rfl⟩⟩
  · exact hinv
  · exact exec_inv (hfetched hf) (hadv hf) hrun he
  · exact hfetched hf
  · exact hin.enterFault (State.genuine_fetchFault hf)

theorem State.Inv.reset : State.reset.Inv where
  mem_wf := Memory.wf_nil _
  pc_le := by decide
  slot_le := by decide
  fault_none := by decide
  fault_genuine := by simp [State.reset]

/-- The reset transaction keeps the configuration, and memory with nothing listed is canonical under any FONT. -/
theorem State.Inv.resetBlock (s : State) : s.resetBlock.Inv := { State.Inv.reset with mem_wf := Memory.wf_nil _ }

theorem State.Inv.loadRom (h : s.Inv) (bytes : List Byte) : (s.loadRom bytes).Inv := by
  rcases s.loadRom_cases bytes with ⟨_, he⟩ | ⟨hle, he⟩ <;> rw [he]
  · exact h
  · exact h.writeBytes (by simp only [romBase, memSize, maxRom] at *; omega)

theorem State.Inv.deliverKeyEvent (h : s.Inv) (k : Nibble) : (s.deliverKeyEvent k).Inv := by
  rcases s.deliverKeyEvent_cases k with ⟨x, hrun, he⟩ | ⟨_, he⟩ <;> rw [he]
  · have hv : (s.setV x (k.zeroExtend 8)).Inv := h.congr
    exact hv.setRunstate (by simp [hrun]) (by simp)
  · exact h

theorem transact_inv (hinv : s.Inv) {r : Request} (h : s.transact r = .next t) : t.Inv := by
  cases r with
  | reset => cases h; exact State.Inv.resetBlock s
  | loadRom bytes => cases h; exact hinv.loadRom bytes
  | step keys rand8 => exact stepCore_inv hinv h
  | tickTimers =>
    cases h
    show ((s.setDt (tickTimer s.dt)).setSt (tickTimer s.st)).Inv
    exact hinv.congr
  | deliverKeyEvent k => cases h; exact hinv.deliverKeyEvent k

end Inv

/-- Settles O17: to issue a request touches the host's side only, and every transaction keeps the invariant. -/
theorem invariantKeptByEveryStep : Obligations.InvariantKeptByEveryStep :=
  fun s _ hinv h => transact_inv (s := s.takeRequest) hinv.congr h

end Sys2Proof.Machine
end

section
/-! What each instruction writes, as one table, and the statements that follow from it: the configuration is fixed (R51),
and VF is written only by its writers (R41). -/

namespace Sys2Proof.Machine

variable {s t : State}

/-! ## The table of writes -/

/-- The elements an instruction may change, run in a state. An instruction that can fault has the run state and the fault
record among them (R362). -/
def Writes (s : State) : Instr → Element → Prop
  | .machineRoutine _, _ => False
  | .clearScreen, e => ∃ row col, e = .pixel row col
  | .ret, e => e ∈ [.sp, .pc, .runstate, .fault]
  | .call _, e => (∃ k, e = .slot k) ∨ e ∈ [.sp, .pc, .runstate, .fault]
  | .jump _, e | .jumpOffset _, e | .skipIfEqual _ _, e | .skipIfNotEqual _ _, e | .skipIfRegEqual _ _ _, e
  | .skipIfRegNotEqual _ _ _, e => e = .pc
  | .skipIfKeyDown _, e | .skipIfKeyUp _, e => e ∈ [.pc, .runstate, .fault]
  | .setReg x _, e | .addImmediate x _, e | .setRand x _, e | .setRegToReg x _, e | .or x _, e | .and x _, e
  | .xor x _, e | .getDelay x, e => e = .v x
  | .addRegToReg x _, e | .subRegFromReg x _, e | .subReverse x _, e =>
    e = .v x ∨ e = .v vf ∧ s.config.arithVf = .canonical
  | .shiftRight x _, e | .shiftLeft x _, e => e ∈ [.v x, .v vf]
  | .draw _ _ _, e => (∃ row col, e = .pixel row col) ∨ e ∈ [.v vf, .runstate, .fault]
  | .setIndex _, e | .addIndex _, e | .fontAddr _, e => e = .i
  | .waitKey _, e => e = .runstate
  | .setDelay _, e => e = .dt
  | .setSound _, e => e = .st
  | .bcd _, e => (∃ a, e = .byte a) ∨ e ∈ [.runstate, .fault]
  | .storeRegs _, e => (∃ a, e = .byte a) ∨ e = .i ∧ s.config.lsIncI = true ∨ e ∈ [.runstate, .fault]
  | .loadRegs x, e =>
    (∃ z : Nibble, z.toNat ≤ x.toNat ∧ e = .v z) ∨ e = .i ∧ s.config.lsIncI = true ∨ e ∈ [.runstate, .fault]

/-- I after a block access is as it was unless P_LS_INC_I is TRUE (R16). -/
theorem changesOnly_setI_indexAfterBlock {p : Element → Prop} {u : State} {x : Nibble} (hu : u.i = s.i)
    (h : s.config.lsIncI = true → p .i) : ChangesOnly p u (u.setI (s.indexAfterBlock x)) := by
  by_cases hinc : s.config.lsIncI = true
  · exact changesOnly_setI (h hinc)
  · rw [State.indexAfterBlock, if_neg hinc, ← hu]
    exact ChangesOnly.refl _ _

/-- An access through I changes what its effect changes, or enters a fault (R90). -/
theorem changesOnly_throughIndex {p : Element → Prop} {effect : State} {i : Instr} {c : FaultCause} {n : Nat}
    (he : ChangesOnly p s effect) (hrun : p .runstate) (hfault : p .fault)
    (h : s.throughIndex i c n effect = .next t) : ChangesOnly p s t := by
  rcases s.throughIndex_cases i c n effect with ⟨_, hn⟩ | ⟨_, hn⟩ <;> rw [hn] at h <;> cases h
  · exact he
  · exact changesOnly_raise hrun hfault

/-- A key skip changes PC, or enters a fault (R324, R325). -/
theorem changesOnly_keySkip {p : Element → Prop} {i : Instr} {b : Byte} {c : Bool} (hpc : p .pc)
    (hrun : p .runstate) (hfault : p .fault)
    (h : (if b.toNat > 15 then .next (s.raise i .keyOutOfRange b.toNat) else .next (s.skipIf c) : Result) = .next t) :
    ChangesOnly p s t := by
  split at h <;> cases h
  · exact changesOnly_raise hrun hfault
  · exact changesOnly_skipIf hpc

theorem changesOnly_aluRegs {p : Element → Prop} {op : AluOp} {x y : Nibble} (hx : p (.v x))
    (hvf : (alu s.config op (s.getV x) (s.getV y)).fw = true → p (.v vf)) : ChangesOnly p s (s.aluRegs op x y) :=
  changesOnly_writeAlu hx hvf

/-- The frame of every instruction: it changes only what the table says. -/
theorem exec_changesOnly {i : Instr} (h : exec i s = .next t) : ChangesOnly (Writes s i) s t := by
  cases i with
  | machineRoutine nnn => cases h; exact ChangesOnly.refl _ _
  | clearScreen => cases h; exact changesOnly_setDisp fun row col _ => ⟨row, col, rfl⟩
  | ret =>
    simp only [exec, execRet] at h
    split at h <;> cases h
    · exact changesOnly_raise (by simp [Writes]) (by simp [Writes])
    · exact changesOnly_popPc (by simp [Writes]) (by simp [Writes])
  | call nnn =>
    simp only [exec, execCall] at h
    split at h <;> cases h
    · exact (changesOnly_push (by simp [Writes]) (by simp [Writes])).trans
        (changesOnly_setPc (by simp [Writes]))
    · exact changesOnly_raise (by simp [Writes]) (by simp [Writes])
  | jump | jumpOffset => cases h; exact changesOnly_setPc rfl
  | skipIfEqual | skipIfNotEqual | skipIfRegEqual | skipIfRegNotEqual => cases h; exact changesOnly_skipIf rfl
  | skipIfKeyDown | skipIfKeyUp =>
    exact changesOnly_keySkip (by simp [Writes]) (by simp [Writes]) (by simp [Writes]) h
  | setReg | setRand | getDelay => cases h; exact changesOnly_setV rfl
  | addImmediate | setRegToReg | or | and | xor => cases h; exact changesOnly_writeAlu rfl nofun
  | addRegToReg | subRegFromReg | subReverse =>
    cases h; exact changesOnly_aluRegs (.inl rfl) fun hfw => .inr ⟨rfl, eq_of_beq hfw⟩
  | shiftRight | shiftLeft =>
    cases h; exact changesOnly_aluRegs (by simp [Writes]) (by simp [Writes])
  | draw x y n =>
    refine changesOnly_throughIndex ?_ (by simp [Writes]) (by simp [Writes]) h
    exact (changesOnly_setDisp fun row col _ => .inl ⟨row, col, rfl⟩).trans (changesOnly_setV (by simp [Writes]))
  | setIndex | addIndex | fontAddr => cases h; exact changesOnly_setI rfl
  | waitKey x => cases h; exact changesOnly_setRunstate rfl
  | setDelay x => cases h; exact changesOnly_setDt rfl
  | setSound x => cases h; exact changesOnly_setSt rfl
  | bcd x =>
    refine changesOnly_throughIndex ?_ (by simp [Writes]) (by simp [Writes]) h
    exact changesOnly_writeBytes fun k _ => .inl ⟨_, rfl⟩
  | storeRegs x =>
    refine changesOnly_throughIndex ?_ (by simp [Writes]) (by simp [Writes]) h
    exact (changesOnly_writeBytes fun k _ => .inl ⟨_, rfl⟩).trans
      (changesOnly_setI_indexAfterBlock rfl fun hinc => .inr (.inl ⟨rfl, hinc⟩))
  | loadRegs x =>
    refine changesOnly_throughIndex ?_ (by simp [Writes]) (by simp [Writes]) h
    have hx := x.isLt
    refine .trans (changesOnly_loadV (by simp; omega) fun z _ hz => .inl ⟨z, ?_, rfl⟩)
      (changesOnly_setI_indexAfterBlock (by simp) fun hinc => .inr (.inl ⟨rfl, hinc⟩))
    simp only [State.readBytes_length] at hz
    omega

/-! ## The configuration (R51) -/

theorem not_writes_config (i : Instr) : ¬ Writes s i .config := by
  cases i <;> simp [Writes]

/-- No instruction changes the configuration. -/
theorem exec_config {i : Instr} (h : exec i s = .next t) : t.config = s.config :=
  exec_changesOnly h .config (not_writes_config i)

theorem stepCore_config {keys : BitVec 16} {rand8 : Byte} (h : s.stepCore keys rand8 = .next t) :
    t.config = s.config := by
  rcases State.stepCore_cases h with rfl | ⟨_, ⟨i, _, he⟩ | ⟨_, rfl⟩ | ⟨_, rfl⟩⟩
  · rfl
  · exact (exec_config he).trans rfl
  · rfl
  · rfl

theorem transact_config {r : Request} (h : s.transact r = .next t) : t.config = s.config := by
  cases r with
  | reset => cases h; rfl
  | loadRom bytes => cases h; rcases s.loadRom_cases bytes with ⟨_, he⟩ | ⟨_, he⟩ <;> simp [he]
  | step keys rand8 => exact stepCore_config h
  | tickTimers => cases h; rfl
  | deliverKeyEvent k => cases h; rcases s.deliverKeyEvent_cases k with ⟨x, _, he⟩ | ⟨_, he⟩ <;> simp [he]

/-- Settles O19: the configuration is no element that an instruction writes, and the other transactions are updates that
leave it. -/
theorem configurationIsFixed : Obligations.ConfigurationIsFixed :=
  ⟨fun _ _ _ => transact_config, fun _ _ _ h => ⟨exec_config h, exec_host h⟩⟩

/-! ## VF (R41) -/

/-- Settles O26: the instruction writes VF by the table, and the rows that can are those of R41. -/
theorem vfIsWrittenOnlyByItsWriters : Obligations.VfIsWrittenOnlyByItsWriters := by
  intro i s t h hvf
  have hw : Writes s i (.v vf) := Classical.byContradiction fun hn => hvf (exec_changesOnly h (.v vf) hn)
  cases i with
  | setReg | addImmediate | setRand | setRegToReg | or | and | xor | getDelay => cases hw; simp [vf]
  | addRegToReg x y | subRegFromReg x y | subReverse x y =>
    have hx : x = 0xF ∨ s.config.arithVf = .canonical := hw.imp (fun e => by cases e; rfl) And.right
    simpa using hx
  | shiftRight | shiftLeft | draw => simp
  | loadRegs x =>
    have hx : 15 ≤ x.toNat := by simpa [Writes, vf] using hw
    obtain rfl : x = 0xF := by bv_omega
    simp
  | _ => simp [Writes] at hw

end Sys2Proof.Machine
end

section
/-! Which instructions reach which part of the state (R44, R46 to R48, R80): one table of users, and one lemma by which
every other instruction runs the same whatever the part holds. -/

namespace Sys2Proof.Machine

variable {s t : State}

/-! ## The parts and their users -/

/-- The parts of the state that the rules give to a few instructions each: the stack with SP (R46), the timers (R47), the
display (R48), I (R44) and memory (R80). -/
inductive StatePart where
  | stack | dt | st | disp | i | mem

/-- The instructions that read or write a part. -/
def StatePart.users : StatePart → List Tag
  | .stack => [.ret, .call]
  | .dt => [.setDelay, .getDelay]
  | .st => [.setSound]
  | .disp => [.clearScreen, .draw]
  | .i => [.setIndex, .addIndex, .fontAddr, .draw, .bcd, .storeRegs, .loadRegs]
  | .mem => [.draw, .bcd, .storeRegs, .loadRegs]

/-- The state with one part as another state holds it. -/
def State.withPart (s o : State) : StatePart → State
  | .stack => { s with stack := o.stack, sp := o.sp }
  | .dt => { s with dt := o.dt }
  | .st => { s with st := o.st }
  | .disp => { s with disp := o.disp }
  | .i => { s with i := o.i }
  | .mem => { s with mem := o.mem }

@[simp] theorem State.withPart_self (s : State) (p : StatePart) : s.withPart s p = s := by cases p <;> rfl

/-! ## The operations beside another part -/

theorem State.skipIf_withPart (s o : State) (p : StatePart) (c : Bool) :
    (s.withPart o p).skipIf c = (s.skipIf c).withPart o p := by
  cases c
  · rfl
  · cases p <;> rfl

theorem State.aluRegs_withPart (s o : State) (p : StatePart) (op : AluOp) (x y : Nibble) :
    (s.withPart o p).aluRegs op x y = (s.aluRegs op x y).withPart o p := by
  simp only [State.aluRegs, State.writeAlu_eq]
  cases p <;> rfl

theorem State.setV_withPart (s o : State) (p : StatePart) (x : Nibble) (b : Byte) :
    (s.withPart o p).setV x b = (s.setV x b).withPart o p := by
  cases p <;> rfl

theorem State.loadV_withPart (s o : State) (p : StatePart) (n : Nat) (bs : List Byte) :
    (s.withPart o p).loadV n bs = (s.loadV n bs).withPart o p := by
  induction bs generalizing s n with
  | nil => rfl
  | cons b bs ih => rw [State.loadV, State.setV_withPart]; exact ih _ _

/-- A handler that branches on nothing the part holds runs the same beside another part when both its branches do. -/
theorem ite_next_withPart (o : State) (p : StatePart) {c : Prop} [Decidable c] {a b : State}
    (h : (if c then .next a else .next b : Result) = .next t) :
    (if c then .next (a.withPart o p) else .next (b.withPart o p) : Result) = .next (t.withPart o p) := by
  split at h <;> cases h <;> simp [*]

/-- An instruction that is no user of a part runs the same whatever the part holds. -/
theorem exec_withPart {p : StatePart} {i : Instr} (o : State) (hp : i.tag ∉ p.users) (h : exec i s = .next t) :
    exec i (s.withPart o p) = .next (t.withPart o p) := by
  cases i with
  | clearScreen =>
    cases p with
    | disp => simp [StatePart.users, Instr.tag] at hp
    | _ => cases h; rfl
  | ret =>
    have hw := ite_next_withPart o p h
    cases p with
    | stack => simp [StatePart.users, Instr.tag] at hp
    | _ => exact hw
  | call nnn =>
    cases p with
    | stack => simp [StatePart.users, Instr.tag] at hp
    | _ =>
      simp only [exec, execCall] at h ⊢
      split at h
      · next hsp => cases h; exact dif_pos hsp
      · next hsp => cases h; exact dif_neg hsp
  | skipIfEqual | skipIfNotEqual | skipIfRegEqual | skipIfRegNotEqual =>
    cases h
    cases p <;> exact congrArg _ (State.skipIf_withPart ..)
  | skipIfKeyDown | skipIfKeyUp =>
    have hw := ite_next_withPart o p h
    simp only [exec, execSkipIfKeyDown, execSkipIfKeyUp, State.skipIf_withPart]
    cases p <;> exact hw
  | setRegToReg | or | and | xor | addRegToReg | subRegFromReg | subReverse | shiftRight | shiftLeft =>
    cases h
    exact congrArg _ (State.aluRegs_withPart ..)
  | draw x y n =>
    have hw := ite_next_withPart o p h
    cases p with
    | stack | dt | st => exact hw
    | disp | i | mem => simp [StatePart.users, Instr.tag] at hp
  | bcd | storeRegs =>
    have hw := ite_next_withPart o p h
    cases p with
    | stack | dt | st | disp => exact hw
    | i | mem => simp [StatePart.users, Instr.tag] at hp
  | loadRegs x =>
    simp only [exec, execLoadRegs, State.loadV_withPart]
    have hw := ite_next_withPart o p h
    cases p with
    | stack | dt | st | disp => exact hw
    | i | mem => simp [StatePart.users, Instr.tag] at hp
  | setIndex | addIndex | fontAddr =>
    cases p with
    | i => simp [StatePart.users, Instr.tag] at hp
    | _ => cases h; rfl
  | getDelay | setDelay =>
    cases p with
    | dt => simp [StatePart.users, Instr.tag] at hp
    | _ => cases h; rfl
  | setSound x =>
    cases p with
    | st => simp [StatePart.users, Instr.tag] at hp
    | _ => cases h; rfl
  | _ => cases h; cases p <;> rfl

/-- An instruction that is no user of a part leaves it: it runs the same beside the part as it is. -/
theorem exec_keepsPart {p : StatePart} {i : Instr} (hp : i.tag ∉ p.users) (h : exec i s = .next t) :
    t = t.withPart s p := by
  have hs := exec_withPart s hp h
  rw [State.withPart_self, h] at hs
  exact Host.Outcome.next.inj hs

/-! ## The statements -/

/-- Settles O20: Call and Return are the only users of the stack. -/
theorem onlyCallAndReturnUseTheStack : Obligations.OnlyCallAndReturnUseTheStack := by
  intro i s t slots sp hret hcall h
  have hp : i.tag ∉ StatePart.stack.users := by cases i <;> simp_all [StatePart.users, Instr.tag]
  exact ⟨(congrArg State.stack (exec_keepsPart hp h) :), (congrArg State.sp (exec_keepsPart hp h) :),
    exec_withPart { s with stack := slots, sp := sp } hp h⟩

/-- Settles O21: each timer has its own users; GetDelay reads DT into a register. -/
theorem onlyTimerInstructionsUseTheTimers : Obligations.OnlyTimerInstructionsUseTheTimers := by
  refine ⟨fun i s t b hset hget h => ?_, fun i s t b hset h => ?_, fun x s t h => ?_⟩
  · have hp : i.tag ∉ StatePart.dt.users := by cases i <;> simp_all [StatePart.users, Instr.tag]
    exact ⟨(congrArg State.dt (exec_keepsPart hp h) :), exec_withPart { s with dt := b } hp h⟩
  · have hp : i.tag ∉ StatePart.st.users := by cases i <;> simp_all [StatePart.users, Instr.tag]
    exact ⟨(congrArg State.st (exec_keepsPart hp h) :), exec_withPart { s with st := b } hp h⟩
  · exact exec_changesOnly h .dt (by simp [Writes])

/-- Settles O22: ClearScreen and Draw are the only users of the display. -/
theorem onlyClearAndDrawUseTheDisplay : Obligations.OnlyClearAndDrawUseTheDisplay := by
  intro i s t d hclear hdraw h
  have hp : i.tag ∉ StatePart.disp.users := by cases i <;> simp_all [StatePart.users, Instr.tag]
  exact ⟨(congrArg State.disp (exec_keepsPart hp h) :), exec_withPart { s with disp := d } hp h⟩

/-- Settles O24: the writers of I are its rows in the table of writes; SetIndex and FontAddr overwrite whatever I held; the
rest are no users of I. -/
theorem onlyIndexInstructionsUseI : Obligations.OnlyIndexInstructionsUseI := by
  refine ⟨fun i s t hset hadd hfont hinc h => ?_, fun i s t a hi h => ?_,
    fun i s t a hset hadd hfont hdraw hbcd hstore hload h => ?_⟩
  · have hw : ¬ Writes s i .i := by cases i <;> simp_all [Writes]
    exact exec_changesOnly h .i hw
  · obtain ⟨nnn, rfl⟩ | ⟨x, rfl⟩ := hi <;> cases h <;> rfl
  · have hp : i.tag ∉ StatePart.i.users := by cases i <;> simp_all [StatePart.users, Instr.tag]
    exact exec_withPart { s with i := a } hp h

end Sys2Proof.Machine
end

section
/-! Memory (`20_memory.md`): who touches it (R80), read after write (R81), the canonical form (log 12), and what the
next fetch reads after a store, a load or a placed word (R83, R95). -/

namespace Sys2Proof.Machine

variable {s t : State}

/-! ## Who touches memory (R80) -/

/-- An access through I leaves memory as its effect leaves it: the fault does not touch it. -/
theorem State.throughIndex_mem {effect : State} {i : Instr} {c : FaultCause} {n : Nat}
    (h : s.throughIndex i c n effect = .next t) (he : effect.mem = s.mem) : t.mem = s.mem := by
  rcases s.throughIndex_cases i c n effect with ⟨_, hn⟩ | ⟨_, hn⟩ <;> rw [hn] at h <;> cases h
  · exact he
  · rfl

theorem exec_mem_of_not_user {i : Instr} (hp : i.tag ∉ StatePart.mem.users) (h : exec i s = .next t) :
    t.mem = s.mem :=
  (congrArg State.mem (exec_keepsPart hp h) :)

/-- Settles O23: the four are the only users of memory, and the two that read it, Draw and LoadRegs, write other
parts. -/
theorem onlyFourInstructionsTouchMemory : Obligations.OnlyFourInstructionsTouchMemory := by
  refine ⟨fun i s t m hdraw hbcd hstore hload h => ?_, fun i s t hbcd hstore h => ?_⟩
  · have hp : i.tag ∉ StatePart.mem.users := by cases i <;> simp_all [StatePart.users, Instr.tag]
    exact ⟨exec_mem_of_not_user hp h, exec_withPart { s with mem := m } hp h⟩
  · cases i with
    | draw x y n => exact State.throughIndex_mem h rfl
    | loadRegs x => exact State.throughIndex_mem h (by simp)
    | bcd x => exact absurd rfl (hbcd x)
    | storeRegs x => exact absurd rfl (hstore x)
    | _ => exact exec_mem_of_not_user (by simp [StatePart.users, Instr.tag]) h

/-! ## Read after write (R81, R87) -/

theorem changesOnly_writeByte {p : Element → Prop} {a : Nat} {b : Byte} (h : p (.byte a)) :
    ChangesOnly p s (s.writeByte a b) := by
  intro e he
  cases e with
  | byte z => exact (s.readByte_writeByte a z b).trans (if_neg fun hz : z = a => he (hz ▸ h))
  | _ => simp [Agree]

/-- Settles O45, by the laws of one cell: what it reads as, its frame, and the canonical form. -/
theorem readReturnsTheLastWrite : Obligations.ReadReturnsTheLastWrite := fun s a b x ha =>
  ⟨s.readByte_writeByte a b x, changesOnly_writeByte (by simp),
    fun hwf => Memory.wf_write hwf (Nat.lt_succ_of_le ha) x⟩

/-! ## The canonical form is canonical (log 12) -/

/-- A listed cell of a memory with rising addresses is what its address reads as. -/
theorem Memory.read_of_mem {font : Font} {m : List Host.Cell} {c : Host.Cell}
    (hm : m.Pairwise fun c d => c.1 < d.1) (hc : c ∈ m) : Memory.read font m c.1 = c.2 := by
  induction m with
  | nil => cases hc
  | cons d m ih =>
    obtain ⟨hd, hm⟩ := List.pairwise_cons.1 hm
    rcases List.mem_cons.1 hc with rfl | hc
    · exact if_pos rfl
    · exact (if_neg (hd c hc).ne').trans (ih hm hc)

/-- An address that does not read as unlisted is listed, with the byte it reads as. -/
theorem Memory.mem_of_read_ne_unlisted {font : Font} {m : List Host.Cell} {a : Nat}
    (h : Memory.read font m a ≠ Memory.unlisted font a) : (a, Memory.read font m a) ∈ m := by
  induction m with
  | nil => exact absurd rfl h
  | cons d m ih =>
    by_cases ha : a = d.1
    · subst ha; simp [Memory.read]
    · have hread : Memory.read font (d :: m) a = Memory.read font m a := if_neg ha
      rw [hread] at h ⊢
      exact List.mem_cons_of_mem d (ih h)

/-- A canonical memory lists no cell that another memory, reading alike in the block, does not. -/
theorem Memory.subset_of_read_eq {font : Font} {m m' : List Host.Cell} (hm : Memory.wf font m)
    (hread : ∀ a ≤ 0xFFF, Memory.read font m a = Memory.read font m' a) : m ⊆ m' := by
  intro c hc
  obtain ⟨hlt, hne⟩ := hm.2 c hc
  have hc' : Memory.read font m' c.1 = c.2 :=
    (hread c.1 (Nat.le_of_lt_succ hlt)).symm.trans (Memory.read_of_mem hm.1 hc)
  have := Memory.mem_of_read_ne_unlisted (hc'.trans_ne hne)
  rwa [hc'] at this

/-- Settles O46: the cells of a canonical memory are read off its addresses, and their order is by address. -/
theorem canonicalMemoriesReadingAlikeAreEqual : Obligations.CanonicalMemoriesReadingAlikeAreEqual := by
  intro font m m' hm hm' hread
  have hsub : m ⊆ m' := Memory.subset_of_read_eq hm hread
  have hsub' : m' ⊆ m := Memory.subset_of_read_eq hm' fun a ha => (hread a ha).symm
  have : Std.Antisymm fun c d : Host.Cell => c.1 < d.1 := ⟨fun _ _ h h' => absurd h h'.not_gt⟩
  have : Std.Irrefl fun c d : Host.Cell => c.1 < d.1 := ⟨fun _ => Nat.lt_irrefl _⟩
  exact List.Subset.antisymm_of_pairwise hm.1 hm'.1 hsub hsub'

/-! ## What the next fetch reads (R83, R95) -/

/-- Settles O7: the fetch reads each byte in its half of the word, and the halves make the word. -/
theorem fetchIsBigEndian : Obligations.FetchIsBigEndian := by
  intro s
  have hhi := (s.fetchReads_of_readByte (a := s.pc.toNat) rfl).1 rfl
  have hlo := (s.fetchReads_of_readByte (a := s.pc.toNat + 1) rfl).2 rfl
  omega

/-- The k-th byte of a block written through I. -/
theorem State.readByte_writeBytes_indexAddr (s : State) {bs : List Byte} {k : Nat} (h : k < bs.length) :
    (s.writeBytes (s.indexAddr 0) bs).readByte (s.indexAddr k) = bs[k] :=
  s.readByte_writeBytes_at (s.indexAddr 0) k bs h

/-- StoreRegs in range stores V0..Vx at I (R264). -/
theorem exec_storeRegs_of_inRange {x : Nibble} (h : s.i.toNat + x.toNat ≤ 0xFFF) : exec (.storeRegs x) s =
    .next ((s.writeBytes (s.indexAddr 0) (s.regsUpTo x)).setI (s.indexAfterBlock x)) :=
  State.throughIndex_of_inRange (.inr h) _ _ _

/-- Bcd in range stores the three digits at I (R263). -/
theorem exec_bcd_of_inRange {x : Nibble} (h : s.i.toNat + 2 ≤ 0xFFF) :
    exec (.bcd x) s = .next (s.writeBytes (s.indexAddr 0) (bcdDigits (s.getV x))) :=
  State.throughIndex_of_inRange (.inr h) _ _ _

/-- `load_rom` of at most MAX_ROM bytes writes them at ROM_BASE (R403). -/
theorem State.loadRom_of_fits {bytes : List Byte} (h : bytes.length ≤ 3584) :
    s.loadRom bytes = s.writeBytes romBase bytes :=
  (s.loadRom_cases bytes).elim (fun ⟨hlong, _⟩ => absurd h (Nat.not_le.2 hlong)) And.right

/-- Settles O47: memory holds each byte of the written block, and the fetch reads what memory holds. -/
theorem fetchSeesTheStoredBytes : Obligations.FetchSeesTheStoredBytes := by
  refine ⟨fun x s h => ⟨_, exec_storeRegs_of_inRange h, rfl, fun k hk => State.fetchReads_of_readByte ?_⟩,
    fun x s h => ⟨_, exec_bcd_of_inRange h, rfl, State.fetchReads_of_readByte ?_, State.fetchReads_of_readByte ?_,
      State.fetchReads_of_readByte ?_⟩,
    fun s bytes h => ⟨_, congrArg _ (State.loadRom_of_fits h), rfl, fun k hk => State.fetchReads_of_readByte ?_⟩⟩
  · rw [State.setI_readByte, State.readByte_writeBytes_indexAddr s (by simp; omega), State.regsUpTo_getElem s x k hk]
  · exact s.readByte_writeBytes_indexAddr (k := 0) (by simp [bcdDigits])
  · exact s.readByte_writeBytes_indexAddr (k := 1) (by simp [bcdDigits])
  · exact s.readByte_writeBytes_indexAddr (k := 2) (by simp [bcdDigits])
  · exact s.readByte_writeBytes_at romBase k bytes hk

/-! ## A placed word (log 6) -/

theorem tableWord_16 (w : Nat) : tableWord 16 w = BitVec.ofNat 16 w := by
  simp [tableWord, ← BitVec.toNat_inj]

/-- The host's decoder, which reads a table word from its two bytes, decodes the word (R83, R113). -/
theorem decodeTableWord_eq (nbits w : Nat) : decodeTableWord nbits w = decode (tableWord nbits w) := by
  simp only [decodeTableWord, decodeBytes, wordOfBytes_bytesOfWord]
  cases decode (tableWord nbits w) <;> rfl

/-- The elements that placing a word sets. -/
theorem State.placeWord_eq (h : s.FetchInRange) (w : Word) : s.placeWord w =
    { s.writeBytes s.pc.toNat [(bytesOfWord w).1, (bytesOfWord w).2] with
      runstate := .running
      fault := none
      host := { s.host with requests := .step s.host.keys s.host.rand8 :: s.host.requests } } :=
  if_pos h

theorem State.placeWord_fetchWord (h : s.FetchInRange) (w : Word) : (s.placeWord w).fetchWord = w := by
  have hhi := s.readByte_writeBytes_at s.pc.toNat 0 [(bytesOfWord w).1, (bytesOfWord w).2] (by simp)
  have hlo := s.readByte_writeBytes_at s.pc.toNat 1 [(bytesOfWord w).1, (bytesOfWord w).2] (by simp)
  rw [State.placeWord_eq h]
  exact (congrArg₂ wordOfBytes hhi hlo).trans (wordOfBytes_bytesOfWord w)

theorem changesOnly_placeWord (h : s.FetchInRange) (w : Word) :
    ChangesOnlyIn [.byte s.pc.toNat, .byte (s.pc.toNat + 1), .runstate, .fault, .host] s (s.placeWord w) := by
  have hbytes : ChangesOnlyIn [.byte s.pc.toNat, .byte (s.pc.toNat + 1), .runstate, .fault, .host] s
      (s.writeBytes s.pc.toNat [(bytesOfWord w).1, (bytesOfWord w).2]) :=
    changesOnly_writeBytes fun k hk => by
      obtain rfl | rfl : k = 0 ∨ k = 1 := by simp at hk; omega
      all_goals simp
  rw [State.placeWord_eq h]
  intro e he
  cases e with
  | runstate | fault | host => simp at he
  | _ => exact hbytes _ he

/-- Settles O60, by the laws of `placeWord` at the table word of 16 bits. -/
theorem placedWordIsFetchedNext : Obligations.PlacedWordIsFetchedNext := by
  intro s w h
  rw [decodeTableWord_eq, State.withFetchWord, tableWord_16]
  refine ⟨?_, ?_, ?_, State.placeWord_fetchWord h _, rfl, changesOnly_placeWord h _⟩ <;> rw [State.placeWord_eq h]
  exact State.nextRequest_cons rfl

end Sys2Proof.Machine
end

section
/-! The encoding (`30_encoding.md`): the fixed bits of every tag's pattern (R113 to R121), which the decoder's tag and the
row of the opcode table both stand for, and the round trips and lists that follow from that one fact. -/

namespace Sys2Proof

/-! ## The fields as slices (R111) -/

theorem nnnOf_eq_append (w : Word) : nnnOf w = xOf w ++ nnOf w :=
  (BitVec.extractLsb'_append_extractLsb'_eq_extractLsb' (start₁ := 0) (len₁ := 8) (start₂ := 8) rfl).symm

theorem nnOf_eq_append (w : Word) : nnOf w = yOf w ++ nOf w :=
  (BitVec.extractLsb'_append_extractLsb'_eq_extractLsb' (start₁ := 0) (len₁ := 4) (start₂ := 4) rfl).symm

/-- Settles O5, by the value of each slice and the two overlaps. -/
theorem decoderFieldsAreSlices : Obligations.DecoderFieldsAreSlices := fun w =>
  ⟨nnnOf_toNat w, nnOf_toNat w, nOf_toNat w, xOf_toNat w, yOf_toNat w, nnnOf_eq_append w, nnOf_eq_append w⟩

/-! ## Decoding an instruction's word -/

/-- The decoder's tag for an instruction's word is the instruction's tag. -/
theorem decodeTag_encode : ∀ i : Instr, i.wellFormed = true → decodeTag (encode i) = i.tag
  | .machineRoutine nnn => Laws.Encoding.machineRoutine nnn
  | .clearScreen => Laws.Encoding.clearScreen
  | .ret => Laws.Encoding.ret
  | .jump nnn => Laws.Encoding.jump nnn
  | .call nnn => Laws.Encoding.call nnn
  | .skipIfEqual x nn => Laws.Encoding.skipIfEqual x nn
  | .skipIfNotEqual x nn => Laws.Encoding.skipIfNotEqual x nn
  | .skipIfRegEqual x y n => Laws.Encoding.skipIfRegEqual x y n
  | .setReg x nn => Laws.Encoding.setReg x nn
  | .addImmediate x nn => Laws.Encoding.addImmediate x nn
  | .setRegToReg x y => Laws.Encoding.setRegToReg x y
  | .or x y => Laws.Encoding.or x y
  | .and x y => Laws.Encoding.and x y
  | .xor x y => Laws.Encoding.xor x y
  | .addRegToReg x y => Laws.Encoding.addRegToReg x y
  | .subRegFromReg x y => Laws.Encoding.subRegFromReg x y
  | .shiftRight x y => Laws.Encoding.shiftRight x y
  | .subReverse x y => Laws.Encoding.subReverse x y
  | .shiftLeft x y => Laws.Encoding.shiftLeft x y
  | .skipIfRegNotEqual x y n => Laws.Encoding.skipIfRegNotEqual x y n
  | .setIndex nnn => Laws.Encoding.setIndex nnn
  | .jumpOffset nnn => Laws.Encoding.jumpOffset nnn
  | .setRand x nn => Laws.Encoding.setRand x nn
  | .draw x y n => Laws.Encoding.draw x y n
  | .skipIfKeyDown x => Laws.Encoding.skipIfKeyDown x
  | .skipIfKeyUp x => Laws.Encoding.skipIfKeyUp x
  | .getDelay x => Laws.Encoding.getDelay x
  | .waitKey x => Laws.Encoding.waitKey x
  | .setDelay x => Laws.Encoding.setDelay x
  | .setSound x => Laws.Encoding.setSound x
  | .addIndex x => Laws.Encoding.addIndex x
  | .fontAddr x => Laws.Encoding.fontAddr x
  | .bcd x => Laws.Encoding.bcd x
  | .storeRegs x => Laws.Encoding.storeRegs x
  | .loadRegs x => Laws.Encoding.loadRegs x

/-- The record of an instruction's word carries every operand of the instruction. -/
theorem toInstr_decodeRecord_encode (i : Instr) :
    { decodeRecord (encode i) with tag := i.tag }.toInstr = some i := by
  cases i <;> simp [Instr.tag, InstrRecord.toInstr, decodeRecord, encode]

/-- Settles O1: the word's tag is the instruction's, and its fields are the operands. -/
theorem decodeInvertsEncode : Obligations.DecodeInvertsEncode := by
  intro i h
  have hrec : decodeRecord (encode i) = { decodeRecord (encode i) with tag := i.tag } := by
    rw [← decodeTag_encode i h]; rfl
  rw [decode, hrec, toInstr_decodeRecord_encode]

/-! ## The pattern of each tag -/

/-- The bits of a word that a tag fixes (R114 to R118, R121); for Undefined, the three lists of R119. -/
def Tag.Matches (w : Word) : Tag → Prop
  | .machineRoutine => leadOf w = 0x0#4 ∧ w ≠ 0x00E0#16 ∧ w ≠ 0x00EE#16
  | .clearScreen => w = 0x00E0#16
  | .ret => w = 0x00EE#16
  | .jump => leadOf w = 0x1#4
  | .call => leadOf w = 0x2#4
  | .skipIfEqual => leadOf w = 0x3#4
  | .skipIfNotEqual => leadOf w = 0x4#4
  | .skipIfRegEqual => leadOf w = 0x5#4
  | .setReg => leadOf w = 0x6#4
  | .addImmediate => leadOf w = 0x7#4
  | .setRegToReg => leadOf w = 0x8#4 ∧ nOf w = 0x0#4
  | .or => leadOf w = 0x8#4 ∧ nOf w = 0x1#4
  | .and => leadOf w = 0x8#4 ∧ nOf w = 0x2#4
  | .xor => leadOf w = 0x8#4 ∧ nOf w = 0x3#4
  | .addRegToReg => leadOf w = 0x8#4 ∧ nOf w = 0x4#4
  | .subRegFromReg => leadOf w = 0x8#4 ∧ nOf w = 0x5#4
  | .shiftRight => leadOf w = 0x8#4 ∧ nOf w = 0x6#4
  | .subReverse => leadOf w = 0x8#4 ∧ nOf w = 0x7#4
  | .shiftLeft => leadOf w = 0x8#4 ∧ nOf w = 0xE#4
  | .skipIfRegNotEqual => leadOf w = 0x9#4
  | .setIndex => leadOf w = 0xA#4
  | .jumpOffset => leadOf w = 0xB#4
  | .setRand => leadOf w = 0xC#4
  | .draw => leadOf w = 0xD#4
  | .skipIfKeyDown => leadOf w = 0xE#4 ∧ nnOf w = 0x9E#8
  | .skipIfKeyUp => leadOf w = 0xE#4 ∧ nnOf w = 0xA1#8
  | .getDelay => leadOf w = 0xF#4 ∧ nnOf w = 0x07#8
  | .waitKey => leadOf w = 0xF#4 ∧ nnOf w = 0x0A#8
  | .setDelay => leadOf w = 0xF#4 ∧ nnOf w = 0x15#8
  | .setSound => leadOf w = 0xF#4 ∧ nnOf w = 0x18#8
  | .addIndex => leadOf w = 0xF#4 ∧ nnOf w = 0x1E#8
  | .fontAddr => leadOf w = 0xF#4 ∧ nnOf w = 0x29#8
  | .bcd => leadOf w = 0xF#4 ∧ nnOf w = 0x33#8
  | .storeRegs => leadOf w = 0xF#4 ∧ nnOf w = 0x55#8
  | .loadRegs => leadOf w = 0xF#4 ∧ nnOf w = 0x65#8
  | .undefined =>
      (leadOf w = 0x8#4 ∧ nOf w ∈ [0x8#4, 0x9#4, 0xA#4, 0xB#4, 0xC#4, 0xD#4, 0xF#4]) ∨
      (leadOf w = 0xE#4 ∧ nnOf w ∉ [0x9E#8, 0xA1#8]) ∨
      (leadOf w = 0xF#4 ∧ nnOf w ∉ [0x07#8, 0x0A#8, 0x15#8, 0x18#8, 0x1E#8, 0x29#8, 0x33#8, 0x55#8, 0x65#8])

section Groups

variable {w : Word}

/-! The groups that decode further (R114 to R117): the decoder's tag is the group's. -/

theorem decodeTag_group0 (h : leadOf w = 0x0#4) : decodeTag w = decodeGroup0 w := by simp [decodeTag, h]
theorem decodeTag_group8 (h : leadOf w = 0x8#4) : decodeTag w = decodeGroup8 (nOf w) := by simp [decodeTag, h]
theorem decodeTag_groupE (h : leadOf w = 0xE#4) : decodeTag w = decodeGroupE (nnOf w) := by simp [decodeTag, h]
theorem decodeTag_groupF (h : leadOf w = 0xF#4) : decodeTag w = decodeGroupF (nnOf w) := by simp [decodeTag, h]

theorem matches_decodeGroup0 (h : leadOf w = 0x0#4) : (decodeGroup0 w).Matches w := by
  unfold decodeGroup0
  split_ifs <;> simp [Tag.Matches, *]

theorem decodeGroup8_undefined_iff : ∀ n : Nibble,
    decodeGroup8 n = .undefined ↔ n ∈ [0x8#4, 0x9#4, 0xA#4, 0xB#4, 0xC#4, 0xD#4, 0xF#4] := by decide

theorem matches_decodeGroup8 (h : leadOf w = 0x8#4) : (decodeGroup8 (nOf w)).Matches w := by
  by_cases hu : decodeGroup8 (nOf w) = .undefined
  · rw [hu]
    exact .inl ⟨h, (decodeGroup8_undefined_iff _).1 hu⟩
  · revert hu
    unfold decodeGroup8
    split_ifs <;> simp [Tag.Matches, *]

theorem matches_decodeGroupE (h : leadOf w = 0xE#4) : (decodeGroupE (nnOf w)).Matches w := by
  unfold decodeGroupE
  split_ifs <;> simp [Tag.Matches, *]

theorem matches_decodeGroupF (h : leadOf w = 0xF#4) : (decodeGroupF (nnOf w)).Matches w := by
  unfold decodeGroupF
  split_ifs <;> simp [Tag.Matches, *]

end Groups

/-- Every nibble, those whose group decodes further first. -/
theorem nibble_cases : ∀ l : Nibble, l = 0x0#4 ∨ l = 0x8#4 ∨ l = 0xE#4 ∨ l = 0xF#4 ∨
    l = 0x1#4 ∨ l = 0x2#4 ∨ l = 0x3#4 ∨ l = 0x4#4 ∨ l = 0x5#4 ∨ l = 0x6#4 ∨ l = 0x7#4 ∨
    l = 0x9#4 ∨ l = 0xA#4 ∨ l = 0xB#4 ∨ l = 0xC#4 ∨ l = 0xD#4 := by
  decide

/-- A word matches the pattern of the decoder's tag. -/
theorem matches_decodeTag (w : Word) : (decodeTag w).Matches w := by
  rcases nibble_cases (leadOf w) with h | h | h | h | h | h | h | h | h | h | h | h | h | h | h | h
  · exact decodeTag_group0 h ▸ matches_decodeGroup0 h
  · exact decodeTag_group8 h ▸ matches_decodeGroup8 h
  · exact decodeTag_groupE h ▸ matches_decodeGroupE h
  · exact decodeTag_groupF h ▸ matches_decodeGroupF h
  all_goals simp [decodeTag, Tag.Matches, h]

/-- A word matches the pattern of no other tag. -/
theorem decodeTag_eq_of_matches {w : Word} {t : Tag} (h : t.Matches w) : decodeTag w = t := by
  cases t
  case machineRoutine =>
    obtain ⟨hl, hcls, hret⟩ := h
    simp [decodeTag_group0 hl, decodeGroup0, hcls, hret]
  case clearScreen | ret => rw [h]; rfl
  case setRegToReg | or | and | xor | addRegToReg | subRegFromReg | shiftRight | subReverse | shiftLeft =>
    rw [decodeTag_group8 h.1, h.2]; rfl
  case skipIfKeyDown | skipIfKeyUp => rw [decodeTag_groupE h.1, h.2]; rfl
  case getDelay | waitKey | setDelay | setSound | addIndex | fontAddr | bcd | storeRegs | loadRegs =>
    rw [decodeTag_groupF h.1, h.2]; rfl
  case undefined =>
    rcases h with ⟨hl, hn⟩ | ⟨hl, hnn⟩ | ⟨hl, hnn⟩
    · rw [decodeTag_group8 hl, decodeGroup8_undefined_iff]; exact hn
    · simp only [List.mem_cons, List.not_mem_nil, or_false, not_or] at hnn
      simp [decodeTag_groupE hl, decodeGroupE, hnn]
    · simp only [List.mem_cons, List.not_mem_nil, or_false, not_or] at hnn
      simp [decodeTag_groupF hl, decodeGroupF, hnn]
  all_goals
    replace h : leadOf w = _ := h
    simp [decodeTag, h]

/-- The decoder's tag is the one tag whose pattern the word matches. -/
theorem decodeTag_eq_iff {w : Word} {t : Tag} : decodeTag w = t ↔ t.Matches w :=
  ⟨fun h => h ▸ matches_decodeTag w, decodeTag_eq_of_matches⟩

/-- Settles O3, by the pattern of Undefined. -/
theorem undefinedWordsAreExactlyListed : Obligations.UndefinedWordsAreExactlyListed := fun w =>
  (decode_eq_none_iff w).trans decodeTag_eq_iff

/-! ## Encoding a word's instruction -/

section Words

variable {w : Word} {l n : Nibble} {nn : Byte}

/-! The bits that a pattern fixes, with the word's other fields, make the word again. -/

theorem wordNNN_of_lead (h : leadOf w = l) : wordNNN l (nnnOf w) = w := h ▸ wordNNN_fields w

theorem wordXNN_of_lead (h : leadOf w = l) : wordXNN l (xOf w) (nnOf w) = w := h ▸ wordXNN_fields w

theorem wordXYN_of_lead (h : leadOf w = l) : wordXYN l (xOf w) (yOf w) (nOf w) = w := h ▸ wordXYN_fields w

theorem wordXNN_of_lead_nn (h : leadOf w = l ∧ nnOf w = nn) : wordXNN l (xOf w) nn = w :=
  h.2 ▸ wordXNN_of_lead h.1

theorem wordXYN_of_lead_n (h : leadOf w = l ∧ nOf w = n) : wordXYN l (xOf w) (yOf w) n = w :=
  h.2 ▸ wordXYN_of_lead h.1

end Words

/-- The instruction that a word's fields name under a tag has that word, where the word matches the tag's pattern. -/
theorem encode_of_matches {w : Word} {t : Tag} {i : Instr} (ht : t.Matches w)
    (h : { decodeRecord w with tag := t }.toInstr = some i) : encode i = w := by
  cases t <;> cases h
  case clearScreen | ret => exact ht.symm
  case machineRoutine => exact wordNNN_of_lead ht.1
  case jump | call | setIndex | jumpOffset => exact wordNNN_of_lead ht
  case skipIfEqual | skipIfNotEqual | setReg | addImmediate | setRand => exact wordXNN_of_lead ht
  case skipIfRegEqual | skipIfRegNotEqual | draw => exact wordXYN_of_lead ht
  case setRegToReg | or | and | xor | addRegToReg | subRegFromReg | shiftRight | subReverse | shiftLeft =>
    exact wordXYN_of_lead_n ht
  all_goals exact wordXNN_of_lead_nn ht

theorem encode_of_decode {w : Word} {i : Instr} (h : decode w = some i) : encode i = w :=
  encode_of_matches (matches_decodeTag w) h

/-- An instruction is ill-formed only where its word is one of the two exact words of group 0 (R114). -/
theorem wellFormed_of_encode {i : Instr} (ht : i.tag.Matches (encode i)) : i.wellFormed = true := by
  cases i
  case machineRoutine nnn =>
    obtain ⟨-, hcls, hret⟩ := ht
    have h1 : nnn ≠ 0x0E0#12 := fun e => hcls (e ▸ rfl)
    have h2 : nnn ≠ 0x0EE#12 := fun e => hret (e ▸ rfl)
    simp [Instr.wellFormed, h1, h2]
  all_goals rfl

/-- Settles O2: the word matches its tag's pattern, so the fields and the fixed bits make it again. -/
theorem encodeInvertsDecode : Obligations.EncodeInvertsDecode := by
  intro w i h
  have hw : encode i = w := encode_of_decode h
  have ht : i.tag.Matches (encode i) := by
    rw [hw, tag_of_decode h]
    exact matches_decodeTag w
  exact ⟨wellFormed_of_encode ht, hw⟩

/-! ## The opcode table (R123) -/

section Rows

variable {w : Word} (t : Tag) (l n : Nibble) (nn : Byte)

/-! What a word keeps under each mask of the table. -/

theorem and_mask_lead (w : Word) : w &&& 0xF000#16 = wordNNN (leadOf w) 0#12 :=
  calc w &&& 0xF000#16
    _ = wordNNN (leadOf w) (nnnOf w) &&& wordNNN (BitVec.allOnes 4) 0#12 := by rw [wordNNN_fields]; rfl
    _ = wordNNN (leadOf w &&& BitVec.allOnes 4) (nnnOf w &&& 0#12) := BitVec.and_append
    _ = wordNNN (leadOf w) 0#12 := by simp only [BitVec.and_allOnes, BitVec.and_zero]

theorem and_mask_lead_nn (w : Word) : w &&& 0xF0FF#16 = wordXNN (leadOf w) 0#4 (nnOf w) :=
  calc w &&& 0xF0FF#16
    _ = wordXNN (leadOf w) (xOf w) (nnOf w) &&& wordXNN (BitVec.allOnes 4) 0#4 (BitVec.allOnes 8) := by
      rw [wordXNN_fields]; rfl
    _ = wordXNN (leadOf w &&& BitVec.allOnes 4) (xOf w &&& 0#4) (nnOf w &&& BitVec.allOnes 8) := by
      simp only [wordXNN, ← BitVec.and_append]
    _ = wordXNN (leadOf w) 0#4 (nnOf w) := by simp only [BitVec.and_allOnes, BitVec.and_zero]

theorem and_mask_lead_n (w : Word) : w &&& 0xF00F#16 = wordXYN (leadOf w) 0#4 0#4 (nOf w) :=
  calc w &&& 0xF00F#16
    _ = wordXYN (leadOf w) (xOf w) (yOf w) (nOf w) &&& wordXYN (BitVec.allOnes 4) 0#4 0#4 (BitVec.allOnes 4) := by
      rw [wordXYN_fields]; rfl
    _ = wordXYN (leadOf w &&& BitVec.allOnes 4) (xOf w &&& 0#4) (yOf w &&& 0#4) (nOf w &&& BitVec.allOnes 4) := by
      simp only [wordXYN, ← BitVec.and_append]
    _ = wordXYN (leadOf w) 0#4 0#4 (nOf w) := by simp only [BitVec.and_allOnes, BitVec.and_zero]

/-! When a word fits a row, by the row's mask. -/

theorem OpcodeRow.fits_iff {r : OpcodeRow} : r.fits w = true ↔ w &&& r.mask = r.pattern ∧ w ∉ r.excludes := by
  simp [OpcodeRow.fits]

theorem OpcodeRow.fits_lead_excludes (es : List Word) : (OpcodeRow.mk t (wordNNN l 0#12) 0xF000#16 es).fits w = true ↔
    leadOf w = l ∧ w ∉ es := by
  have hl : wordNNN (leadOf w) 0#12 = wordNNN l 0#12 ↔ leadOf w = l :=
    ⟨fun h => by simpa using congrArg leadOf h, fun h => by rw [h]⟩
  rw [fits_iff, and_mask_lead, hl]

theorem OpcodeRow.fits_lead : (OpcodeRow.mk t (wordNNN l 0#12) 0xF000#16 []).fits w = true ↔ leadOf w = l := by
  simp [fits_lead_excludes]

theorem OpcodeRow.fits_lead_n : (OpcodeRow.mk t (wordXYN l 0#4 0#4 n) 0xF00F#16 []).fits w = true ↔
    leadOf w = l ∧ nOf w = n := by
  have hl : wordXYN (leadOf w) 0#4 0#4 (nOf w) = wordXYN l 0#4 0#4 n ↔ leadOf w = l ∧ nOf w = n :=
    ⟨fun h => ⟨by simpa using congrArg leadOf h, by simpa using congrArg nOf h⟩, fun h => by rw [h.1, h.2]⟩
  simp [fits_iff, and_mask_lead_n, hl]

theorem OpcodeRow.fits_lead_nn : (OpcodeRow.mk t (wordXNN l 0#4 nn) 0xF0FF#16 []).fits w = true ↔
    leadOf w = l ∧ nnOf w = nn := by
  have hl : wordXNN (leadOf w) 0#4 (nnOf w) = wordXNN l 0#4 nn ↔ leadOf w = l ∧ nnOf w = nn :=
    ⟨fun h => ⟨by simpa using congrArg leadOf h, by simpa using congrArg nnOf h⟩, fun h => by rw [h.1, h.2]⟩
  simp [fits_iff, and_mask_lead_nn, hl]

theorem OpcodeRow.fits_word (p : Word) : (OpcodeRow.mk t p 0xFFFF#16 []).fits w = true ↔ w = p := by
  have hw : w &&& 0xFFFF#16 = w := BitVec.and_allOnes
  simp [fits_iff, hw]

end Rows

/-- A row of the table fits exactly the words of its tag's pattern. -/
theorem OpcodeRow.fits_iff_matches (w : Word) : ∀ r ∈ opcodeTable, r.fits w = true ↔ r.tag.Matches w := by
  simp only [opcodeTable, List.forall_mem_append]
  refine ⟨⟨⟨?rows0to7, ?rows8⟩, ?rows9toD⟩, ?rowsEF⟩
  case rows0to7 =>
    simp only [opcodeRows0to7, List.forall_mem_cons]
    exact ⟨(fits_lead_excludes _ 0x0 _).trans (by simp [Tag.Matches]), fits_word _ _, fits_word _ _,
      fits_lead _ 0x1, fits_lead _ 0x2, fits_lead _ 0x3, fits_lead _ 0x4, fits_lead _ 0x5, fits_lead _ 0x6,
      fits_lead _ 0x7, List.forall_mem_nil _⟩
  case rows8 =>
    simp only [opcodeRows8, List.forall_mem_cons]
    exact ⟨fits_lead_n _ 0x8 0x0, fits_lead_n _ 0x8 0x1, fits_lead_n _ 0x8 0x2, fits_lead_n _ 0x8 0x3,
      fits_lead_n _ 0x8 0x4, fits_lead_n _ 0x8 0x5, fits_lead_n _ 0x8 0x6, fits_lead_n _ 0x8 0x7,
      fits_lead_n _ 0x8 0xE, List.forall_mem_nil _⟩
  case rows9toD =>
    simp only [opcodeRows9toD, List.forall_mem_cons]
    exact ⟨fits_lead _ 0x9, fits_lead _ 0xA, fits_lead _ 0xB, fits_lead _ 0xC, fits_lead _ 0xD, List.forall_mem_nil _⟩
  case rowsEF =>
    simp only [opcodeRowsEF, List.forall_mem_cons]
    exact ⟨fits_lead_nn _ 0xE 0x9E, fits_lead_nn _ 0xE 0xA1, fits_lead_nn _ 0xF 0x07, fits_lead_nn _ 0xF 0x0A,
      fits_lead_nn _ 0xF 0x15, fits_lead_nn _ 0xF 0x18, fits_lead_nn _ 0xF 0x1E, fits_lead_nn _ 0xF 0x29,
      fits_lead_nn _ 0xF 0x33, fits_lead_nn _ 0xF 0x55, fits_lead_nn _ 0xF 0x65, List.forall_mem_nil _⟩

/-- The rows of the table carry every tag but Undefined, each once. -/
theorem opcodeTable_tags_filter (t : Tag) :
    (opcodeTable.map (·.tag)).filter (t = ·) = if t = .undefined then [] else [t] := by
  cases t <;> rfl

theorem tableTags_eq (w : Word) : tableTags w = if decodeTag w = .undefined then [] else [decodeTag w] := by
  have hfits : ∀ r ∈ opcodeTable, r.fits w = decide (decodeTag w = r.tag) := fun r hr => by
    rw [Bool.eq_iff_iff, OpcodeRow.fits_iff_matches w r hr, decide_eq_true_iff, decodeTag_eq_iff]
  calc tableTags w
    _ = (opcodeTable.map (·.tag)).filter (decodeTag w = ·) := by
      rw [tableTags, List.filter_congr hfits, List.filter_map]; rfl
    _ = _ := opcodeTable_tags_filter _

/-- Settles O4: a row fits where its tag is the decoder's, and each tag but Undefined has one row. -/
theorem opcodeTableAgreesWithDecoder : Obligations.OpcodeTableAgreesWithDecoder :=
  ⟨tableTags_eq, rfl, rfl, fun _ hl hcls hret => decodeTag_eq_of_matches ⟨hl, hcls, hret⟩⟩

end Sys2Proof
end

section
/-! The cycle driver (`40_dispatch.md`): what a step is and what it reports, by the run state, the fetch and the decoded
word (R150 to R158), and what FAULTED keeps under every transaction but reset (R365). -/

namespace Sys2Proof.Machine

variable {s t : State}

/-! ## A step of a RUNNING block, by its fetch (R150) -/

/-- A fetch in range hands its word to the handlers, with the inputs sampled and PC advanced. -/
theorem State.stepCore_of_fetch (hrun : s.runstate = .running) (hf : s.FetchInRange) (keys : BitVec 16)
    (rand8 : Byte) : s.stepCore keys rand8 = (s.sampleInputs keys rand8).advancePc.execWord s.fetchWord :=
  (State.stepCore_running hrun keys rand8).trans (if_pos hf)

theorem State.stepCore_of_fetchFault (hrun : s.runstate = .running) (hf : ¬ s.FetchInRange) (keys : BitVec 16)
    (rand8 : Byte) : s.stepCore keys rand8 =
      .next ((s.sampleInputs keys rand8).enterFault .fetchOutOfRange s.pc 0 s.fetchFaultInfo) :=
  (State.stepCore_running hrun keys rand8).trans (if_neg hf)

theorem State.execWord_of_decode {w : Word} {i : Instr} (h : decode w = some i) (s : State) :
    s.execWord w = exec i s := by simp only [State.execWord, h]

theorem State.execWord_of_undefined {w : Word} (h : decodeTag w = .undefined) (s : State) :
    s.execWord w = .next s := by simp only [State.execWord, (decode_eq_none_iff w).2 h, execUndefined]

/-- The state that a served step hands to the handler: the request taken, the inputs sampled, PC advanced (R150, R407). -/
theorem State.takeRequest_sampleInputs_advancePc (s : State) (keys : BitVec 16) (rand8 : Byte) :
    (s.takeRequest.sampleInputs keys rand8).advancePc =
      { s with pc := s.pc + 2, host := { s.takeRequest.host with keys := keys, rand8 := rand8 } } := by
  cases h : s.host.requests <;> simp only [State.takeRequest, h] <;> rfl

/-! ## The report, by the run state (R151, R152, R155) -/

theorem State.stepReport_awaiting {x : Nibble} (h : s.runstate = .awaitingKey x) (keys : BitVec 16) (rand8 : Byte) :
    s.stepReport keys rand8 = .next .blocked := by simp only [State.stepReport, h]

theorem State.stepReport_faulted (h : s.runstate = .faulted) (keys : BitVec 16) (rand8 : Byte) :
    s.stepReport keys rand8 = .next (.faulted s.fault) := by simp only [State.stepReport, h]

theorem State.stepReport_running {keys : BitVec 16} {rand8 : Byte} (hrun : s.runstate = .running)
    (h : s.stepCore keys rand8 = .next t) : s.stepReport keys rand8 =
      if t.runstate = .faulted then .next (.faulted t.fault)
      else .next (.executed s.pc s.fetchWord (decodeRecord s.fetchWord)) := by
  simp only [State.stepReport, hrun, h]

/-! ## The steps of each run state -/

/-- Settles O14: the report of a RUNNING block branches on whether the step ended FAULTED. -/
theorem stepReportsWhatRan : Obligations.StepReportsWhatRan := fun _ _ _ _ hrun h =>
  ⟨fun hne => (State.stepReport_running hrun h).trans (if_neg hne),
    fun hft => (State.stepReport_running hrun h).trans (if_pos hft)⟩

/-- Settles O9: the Undefined no-op leaves the state as the fetch made it, which is RUNNING still, so Executed is what
the step reports. -/
theorem undefinedWordIsNoOp : Obligations.UndefinedWordIsNoOp := by
  intro s keys rand8 hrun hf hu
  have hstep : s.stepCore keys rand8 = .next (s.sampleInputs keys rand8).advancePc :=
    (State.stepCore_of_fetch hrun hf keys rand8).trans (State.execWord_of_undefined hu _)
  have hne : (s.sampleInputs keys rand8).advancePc.runstate ≠ .faulted := by simp [hrun]
  have hframe : ChangesOnlyIn [.pc, .host] s (s.sampleInputs keys rand8).advancePc :=
    (changesOnly_sampleInputs (by simp)).trans (changesOnly_advancePc (by simp))
  exact ⟨⟨_, hstep, rfl, hframe⟩, (stepReportsWhatRan _ _ _ _ hrun hstep).1 hne⟩

/-- Settles O10: the fetch enters the fault before PC is advanced, and the record is the one R361 gives a failed fetch. -/
theorem fetchOutOfRangeFaults : Obligations.FetchOutOfRangeFaults := by
  intro s keys rand8 hrun hpc
  have hf : ¬ s.FetchInRange := Nat.not_le.2 hpc
  obtain ⟨hword, -, hinfo⟩ := State.genuine_fetchFault hf
  exact ⟨_, _, State.stepCore_of_fetchFault hrun hf keys rand8, rfl, rfl, rfl, rfl, hword, hinfo,
    (changesOnly_sampleInputs (by simp)).trans (changesOnly_enterFault (by simp) (by simp))⟩

/-- Settles O8: the request that the host issues is the step, and taking it touches the host's side only, so the fetch
reads the same word. -/
theorem stepRunsTheDecodedInstruction : Obligations.StepRunsTheDecodedInstruction := by
  intro s keys rand8 i hreq hrun hf hd
  have hrun' : s.takeRequest.runstate = .running := by simpa using hrun
  have hf' : s.takeRequest.FetchInRange := by simpa using hf
  have hd' : decode s.takeRequest.fetchWord = some i := by simpa using hd
  calc step s
    _ = s.takeRequest.stepCore keys rand8 := by rw [step, hreq]; rfl
    _ = exec i (s.takeRequest.sampleInputs keys rand8).advancePc :=
      (State.stepCore_of_fetch hrun' hf' keys rand8).trans (State.execWord_of_decode hd' _)
    _ = _ := by rw [State.takeRequest_sampleInputs_advancePc]

/-- Settles O11, by the step and the report of AWAITING_KEY. -/
theorem stepBlocksWhileAwaitingKey : Obligations.StepBlocksWhileAwaitingKey := fun _ _ keys rand8 h =>
  ⟨State.stepCore_awaiting h keys rand8, State.stepReport_awaiting h keys rand8⟩

/-- Settles O27: the word of the instruction decodes to it where it is none of the two exact words of group 0, and the
handler returns the state it was given. -/
theorem machineRoutineIsNoOp : Obligations.MachineRoutineIsNoOp := by
  intro nnn
  refine ⟨fun hcls hret => decodeInvertsEncode (.machineRoutine nnn) ?_, fun s => ⟨s, rfl, ChangesOnly.refl _ s⟩⟩
  simp [Instr.wellFormed, hcls, hret]

/-! ## The other transactions in FAULTED (R365) -/

theorem changesOnly_tickTimers {p : Element → Prop} (hdt : p .dt) (hst : p .st) : ChangesOnly p s s.tickTimers :=
  (changesOnly_setDt hdt).trans (changesOnly_setSt hst)

theorem State.deliverKeyEvent_faulted (h : s.runstate = .faulted) (k : Nibble) : s.deliverKeyEvent k = s := by
  simp only [State.deliverKeyEvent, h]

/-- `load_rom` of more than MAX_ROM bytes is rejected (R403). -/
theorem State.loadRom_of_tooLong {bytes : List Byte} (h : 3584 < bytes.length) : s.loadRom bytes = s :=
  (s.loadRom_cases bytes).elim And.right fun ⟨hfits, _⟩ => absurd h (Nat.not_lt.2 hfits)

/-- Only reset leaves FAULTED or clears the record (R365). -/
theorem transact_keepsFault {r : Request} (hs : s.runstate = .faulted) (h : s.transact r = .next t)
    (hr : r ≠ .reset) : t.runstate = .faulted ∧ t.fault = s.fault := by
  cases r with
  | reset => exact absurd rfl hr
  | loadRom bytes => cases h; rcases s.loadRom_cases bytes with ⟨_, he⟩ | ⟨_, he⟩ <;> simp [he, hs]
  | step keys rand8 => cases (State.stepCore_faulted hs keys rand8).symm.trans h; exact ⟨hs, rfl⟩
  | tickTimers => cases h; exact ⟨hs, rfl⟩
  | deliverKeyEvent k => cases h; rw [State.deliverKeyEvent_faulted hs]; exact ⟨hs, rfl⟩

/-- Settles O12: each transaction in FAULTED is the update it is in every run state, or none. -/
theorem faultIsStickyUntilReset : Obligations.FaultIsStickyUntilReset := by
  intro s hs
  refine ⟨?step, ?sticky, ?keyEvent, ?tick, ?load, ?reject, ?reset⟩
  case step => exact fun keys rand8 => ⟨State.stepCore_faulted hs keys rand8, State.stepReport_faulted hs keys rand8⟩
  case sticky => exact fun r t => transact_keepsFault hs
  case keyEvent => exact fun k => congrArg _ (State.deliverKeyEvent_faulted hs k)
  case tick =>
    exact ⟨_, rfl, tickTimer_toNat s.dt, tickTimer_toNat s.st, changesOnly_tickTimers (by simp) (by simp)⟩
  case load =>
    intro bytes hle
    exact ⟨_, congrArg _ (State.loadRom_of_fits hle), fun k hk => s.readByte_writeBytes_at romBase k bytes hk,
      changesOnly_writeBytes fun k hk => ⟨k, hk, rfl⟩⟩
  case reject => exact fun bytes hlong => congrArg _ (State.loadRom_of_tooLong hlong)
  case reset => exact ⟨_, rfl, rfl, rfl⟩

end Sys2Proof.Machine
end

section
/-! Control transfer (`41_control_flow.md`): what each handler answers in each of its cases, and from that the jumps, the
call stack and the register skips (R180 to R188). -/

namespace Sys2Proof.Machine

variable {s : State}

/-! ## The targets (R181, R182, R187) -/

/-- The address field reaches PC zero-extended (R181). -/
theorem zeroExtend_addr_toNat (nnn : Addr12) : (nnn.zeroExtend 16).toNat = nnn.toNat :=
  BitVec.toNat_setWidth_of_le (by decide)

/-- The sum of JumpOffset is at most 0x10FE, so 16 bits hold it (R43, R187). -/
theorem jumpOffset_target_toNat (nnn : Addr12) (b : Byte) :
    (nnn.zeroExtend 16 + b.zeroExtend 16 : Word).toNat = nnn.toNat + b.toNat := by
  have := nnn.isLt
  have := b.isLt
  simp only [BitVec.toNat_add, BitVec.toNat_setWidth, BitVec.zeroExtend]
  omega

/-- The nibble nnn[11:8] that names JumpOffset's register under VX (R187). -/
theorem extractLsb'_addr_highNibble (nnn : Addr12) : nnn.extractLsb' 8 4 = BitVec.ofNat 4 (nnn.toNat / 256) := by
  apply BitVec.eq_of_toNat_eq
  rw [BitVec.extractLsb'_toNat, Nat.shiftRight_eq_div_pow, BitVec.toNat_ofNat]

theorem State.jumpOffset_of_v0 (h : s.config.jumpOffsetReg = .v0) (nnn : Addr12) : s.jumpOffset nnn = s.getV 0x0 := by
  simp only [State.jumpOffset, h]

theorem State.jumpOffset_of_vx (h : s.config.jumpOffsetReg = .vx) (nnn : Addr12) :
    s.jumpOffset nnn = s.getV (BitVec.ofNat 4 (nnn.toNat / 256)) := by
  simp only [State.jumpOffset, h, extractLsb'_addr_highNibble]

/-! ## The call stack (R45) -/

/-- The slot that a push occupies holds the pushed address. -/
theorem State.push_stack_get (a : Word) (h : s.sp.val < 16) : (s.push a h).stack.get ⟨s.sp.val, h⟩ = a := by
  simp [Vector.get_eq_getElem]

/-- A pop sets PC to the value of the slot that SP then no longer counts. -/
theorem State.popPc_pc_of_sp {k : Fin 16} (h : s.sp.val = k.val + 1) : s.popPc.pc = s.stack.get k := by
  simp [State.popPc_pc, Vector.get_eq_getElem, h]

/-! ## Call and Return, by the slots in use -/

theorem exec_call_of_room (h : s.sp.val < 16) (nnn : Addr12) :
    exec (.call nnn) s = .next ((s.push s.pc h).setPc (nnn.zeroExtend 16)) := dif_pos h

theorem exec_call_of_full (h : s.sp.val = 16) (nnn : Addr12) :
    exec (.call nnn) s = .next (s.raise (.call nnn) .stackOverflow 16) := dif_neg (by omega)

theorem exec_ret_of_occupied (h : s.sp.val ≠ 0) : exec .ret s = .next s.popPc := if_neg h

theorem exec_ret_of_empty (h : s.sp.val = 0) : exec .ret s = .next (s.raise .ret .stackUnderflow 0) := if_pos h

/-- A handler's fault is the record and the frame of R362. -/
theorem raised_raise (i : Instr) (c : FaultCause) (n : Nat) : Raised i c n s (s.raise i c n) :=
  ⟨rfl, rfl, changesOnly_raise (by simp) (by simp)⟩

/-! ## The skip mechanism (R188) -/

/-- A handler that skips on a condition moves PC by it, and nothing else. -/
theorem exec_of_skipIf {i : Instr} {c : Bool} {P : Prop} [Decidable P] (he : exec i s = .next (s.skipIf c))
    (hc : c = true ↔ P) : ∃ t, exec i s = .next t ∧ t.pc = (if P then s.pc + 2 else s.pc) ∧ ChangesOnlyIn [.pc] s t :=
  ⟨_, he, by simp only [State.skipIf_pc, hc], changesOnly_skipIf (by simp)⟩

/-! ## The statements -/

/-- Settles O28: the handler only sets PC, to the zero-extended target. -/
theorem jumpSetsPc : Obligations.JumpSetsPc := fun nnn =>
  ⟨decodeInvertsEncode (.jump nnn) rfl, fun _ => ⟨_, rfl, zeroExtend_addr_toNat nnn, changesOnly_setPc (by simp)⟩⟩

/-- Settles O29: with a free slot Call is a push and a jump, and without one it raises its fault. -/
theorem callPushesAndJumps : Obligations.CallPushesAndJumps := by
  intro nnn
  refine ⟨decodeInvertsEncode (.call nnn) rfl, ?room, ?full⟩
  case room =>
    intro s h
    have hframe : ChangesOnlyIn [.slot ⟨s.sp.val, h⟩, .sp, .pc] s ((s.push s.pc h).setPc (nnn.zeroExtend 16)) :=
      (changesOnly_push (by simp) (by simp)).trans (changesOnly_setPc (by simp))
    exact ⟨_, exec_call_of_room h nnn, State.push_stack_get s.pc h, rfl, zeroExtend_addr_toNat nnn, hframe⟩
  case full => exact fun s h => ⟨_, exec_call_of_full h nnn, raised_raise _ _ _⟩

/-- Settles O30: with a slot in use Return is a pop, and with none it raises its fault. -/
theorem returnPopsPc : Obligations.ReturnPopsPc := by
  refine ⟨decodeInvertsEncode .ret rfl, ?occupied, ?empty⟩
  case occupied =>
    intro s k h
    have hsp : s.popPc.sp.val = k.val := by rw [State.popPc_sp, h, Nat.add_sub_cancel]
    exact ⟨_, exec_ret_of_occupied (by omega), hsp, State.popPc_pc_of_sp h, changesOnly_popPc (by simp) (by simp)⟩
  case empty => exact fun s h => ⟨_, exec_ret_of_empty h, raised_raise _ _ _⟩

/-- Settles O31: the Return pops the slot that the Call pushed, since SP counts that slot last. -/
theorem returnUndoesCall : Obligations.ReturnUndoesCall := by
  intro nnn s t u h hcall hsp hslot
  cases (exec_call_of_room h nnn).symm.trans hcall
  have htop : u.sp.val = s.sp.val + 1 := congrArg Fin.val hsp
  obtain ⟨-, hpop, -⟩ := returnPopsPc
  obtain ⟨r, hret, hrsp, hrpc, hframe⟩ := hpop u ⟨s.sp.val, h⟩ htop
  have hpushed : u.stack.get ⟨s.sp.val, h⟩ = s.pc := hslot.trans (State.push_stack_get s.pc h)
  exact ⟨r, hret, hrpc.trans hpushed, Fin.ext hrsp, hframe⟩

/-- Settles O32: each handler skips on its test of V[x], and the nibble n of groups 5 and 9 does not reach it. -/
theorem registerSkipsFollowTheirConditions : Obligations.RegisterSkipsFollowTheirConditions := by
  intro x y n nn
  refine ⟨⟨decodeInvertsEncode (.skipIfEqual x nn) rfl, decodeInvertsEncode (.skipIfNotEqual x nn) rfl,
    decodeInvertsEncode (.skipIfRegEqual x y n) rfl, decodeInvertsEncode (.skipIfRegNotEqual x y n) rfl⟩, fun s => ?_⟩
  exact ⟨exec_of_skipIf rfl beq_iff_eq, exec_of_skipIf rfl bne_iff_ne,
    exec_of_skipIf rfl beq_iff_eq, exec_of_skipIf rfl bne_iff_ne⟩

/-- Settles O33: the handler only sets PC, to a sum that 16 bits hold, whose register the parameter selects. -/
theorem jumpOffsetAddsTheRegister : Obligations.JumpOffsetAddsTheRegister := by
  intro nnn
  refine ⟨decodeInvertsEncode (.jumpOffset nnn) rfl, fun s => ⟨_, rfl, ?v0, ?vx, changesOnly_setPc (by simp)⟩⟩
  case v0 => exact fun h => State.jumpOffset_of_v0 h nnn ▸ jumpOffset_target_toNat nnn _
  case vx => exact fun h => State.jumpOffset_of_vx h nnn ▸ jumpOffset_target_toNat nnn _

end Sys2Proof.Machine
end

section
/-! The register operations (`42_alu.md`): what a handler that writes its result, or its result and its flag, leaves in the
state, the values of R210 as numbers, and the statements for each instruction (R212 to R223). -/

namespace Sys2Proof.Machine

variable {s : State} {i : Instr} {x : Nibble} {r : Byte} {f : Bool} {m n : Nat}

/-! ## The writes of R211 -/

/-- A handler that writes one register leaves its value there and changes nothing else. -/
theorem exec_of_setV (he : exec i s = .next (s.setV x r)) :
    ∃ t, exec i s = .next t ∧ t.getV x = r ∧ ChangesOnlyIn [.v x] s t :=
  ⟨_, he, s.getV_setV_self x r, changesOnly_setV (by simp)⟩

/-- The same where the value is stated as a number. -/
theorem exec_of_setV_toNat (he : exec i s = .next (s.setV x r)) (hr : r.toNat = n) :
    ∃ t, exec i s = .next t ∧ (t.getV x).toNat = n ∧ ChangesOnlyIn [.v x] s t := by
  obtain ⟨t, ht, hx, hframe⟩ := exec_of_setV he
  exact ⟨t, ht, hx ▸ hr, hframe⟩

/-- A handler that writes its flag to VF over its result: V[x] keeps the result unless it is VF, and VF ends as the flag. -/
theorem exec_of_setV_flag (he : exec i s = .next ((s.setV x r).setV vf (flagByte f))) (hr : r.toNat = n)
    (hf : (flagByte f).toNat = m) :
    ∃ t, exec i s = .next t ∧ (x ≠ 0xF → (t.getV x).toNat = n) ∧ (t.getV 0xF).toNat = m ∧
      ChangesOnlyIn [.v x, .v 0xF] s t := by
  refine ⟨_, he, fun hx => ?result, ?flag, (changesOnly_setV (by simp)).trans (changesOnly_setV (by simp [vf]))⟩
  case result => rw [State.getV_setV_of_ne (x := vf) _ hx, State.getV_setV_self, hr]
  case flag => exact (congrArg BitVec.toNat (State.getV_setV_self _ vf _)).trans hf

/-- Under CANONICAL an arithmetic operation writes its result and then its flag (R13, R211). -/
theorem State.writeAlu_of_canonical (h : s.config.arithVf = .canonical) (x : Nibble) (r : Byte) (f : Bool) :
    s.writeAlu x ⟨r, some f, arithFlagWritten s.config⟩ = (s.setV x r).setV vf (flagByte f) := by
  rw [arithFlagWritten, h]; rfl

/-- Under REFERENCE an arithmetic operation writes its result only (R13). -/
theorem State.writeAlu_of_reference (h : s.config.arithVf = .reference) (x : Nibble) (r : Byte) (f : Bool) :
    s.writeAlu x ⟨r, some f, arithFlagWritten s.config⟩ = s.setV x r := by
  rw [arithFlagWritten, h]; rfl

/-! ## Results and flags as numbers (R210) -/

theorem toNat_sub_byte (a b : Byte) : (a - b).toNat = (a.toNat + 256 - b.toNat) % 256 := by
  bv_omega

theorem toNat_byte_shiftRight_one (a : Byte) : (a >>> 1).toNat = a.toNat / 2 := by
  rw [BitVec.toNat_ushiftRight, Nat.shiftRight_eq_div_pow, Nat.pow_one]

theorem toNat_byte_shiftLeft_one (a : Byte) : (a <<< 1).toNat = a.toNat * 2 % 256 := by
  rw [BitVec.toNat_shiftLeft, Nat.shiftLeft_eq, Nat.pow_one]

theorem flagByte_toNat (f : Bool) : (flagByte f).toNat = f.toNat := by
  cases f <;> rfl

theorem flagByte_decide_toNat (P : Prop) [Decidable P] : (flagByte (decide P)).toNat = if P then 1 else 0 := by
  by_cases h : P <;> simp [flagByte, h]

/-- A flag that is bit k of a byte. -/
theorem flagByte_getLsbD_toNat (a : Byte) (k : Nat) : (flagByte (a.getLsbD k)).toNat = a.toNat / 2 ^ k % 2 := by
  rw [flagByte_toNat]; exact Nat.toNat_testBit ..

theorem flagByte_bit0_toNat (a : Byte) : (flagByte (a.getLsbD 0)).toNat = a.toNat % 2 := by
  rw [flagByte_getLsbD_toNat, Nat.pow_zero, Nat.div_one]

theorem flagByte_bit7_toNat (a : Byte) : (flagByte (a.getLsbD 7)).toNat = a.toNat / 128 := by
  have := a.isLt
  rw [flagByte_getLsbD_toNat]
  omega

/-- The shift source by P_SHIFT_SRC (R14). -/
theorem shiftSource_eq (src : ShiftSrc) (a b : Byte) : shiftSource src a b = if src = .vx then a else b := by
  cases src <;> rfl

/-! ## The statements -/

/-- Settles O34: the handler is one write of V[x]. -/
theorem setRegWritesTheImmediate : Obligations.SetRegWritesTheImmediate := fun x nn =>
  ⟨decodeInvertsEncode (.setReg x nn) rfl, fun _ => exec_of_setV rfl⟩

/-- Settles O35: ADDI has no flag to write, and its sum is that of bytes. -/
theorem addImmediateWrapsWithoutFlag : Obligations.AddImmediateWrapsWithoutFlag := fun x nn =>
  ⟨decodeInvertsEncode (.addImmediate x nn) rfl, fun s => exec_of_setV_toNat rfl (BitVec.toNat_add (s.getV x) nn)⟩

/-- Settles O36: the ALU gives none of the four a flag, so each is one write of V[x]. -/
theorem moveAndLogicWriteOnlyVx : Obligations.MoveAndLogicWriteOnlyVx := fun x y =>
  ⟨⟨decodeInvertsEncode (.setRegToReg x y) rfl, decodeInvertsEncode (.or x y) rfl,
    decodeInvertsEncode (.and x y) rfl, decodeInvertsEncode (.xor x y) rfl⟩,
  fun _ => ⟨exec_of_setV rfl, exec_of_setV rfl, exec_of_setV rfl, exec_of_setV rfl⟩⟩

/-- Settles O37: P_ARITH_VF decides whether the flag is written after the result, and the three operations differ only in
their result and flag. -/
theorem arithmeticFollowsArithVf : Obligations.ArithmeticFollowsArithVf := by
  intro x y
  refine ⟨⟨decodeInvertsEncode (.addRegToReg x y) rfl, decodeInvertsEncode (.subRegFromReg x y) rfl,
    decodeInvertsEncode (.subReverse x y) rfl⟩, fun s h => ?canonical, fun s h => ?reference⟩
  case canonical =>
    have hwrite (r : Byte) (f : Bool) :=
      congrArg (Host.Outcome.next : State → Result) (State.writeAlu_of_canonical h x r f)
    exact ⟨exec_of_setV_flag (hwrite _ _) (BitVec.toNat_add _ _) (flagByte_decide_toNat _),
      exec_of_setV_flag (hwrite _ _) (toNat_sub_byte _ _) (flagByte_decide_toNat _),
      exec_of_setV_flag (hwrite _ _) (toNat_sub_byte _ _) (flagByte_decide_toNat _)⟩
  case reference =>
    have hwrite (r : Byte) (f : Bool) :=
      congrArg (Host.Outcome.next : State → Result) (State.writeAlu_of_reference h x r f)
    exact ⟨exec_of_setV_toNat (hwrite _ _) (BitVec.toNat_add _ _),
      exec_of_setV_toNat (hwrite _ _) (toNat_sub_byte _ _),
      exec_of_setV_toNat (hwrite _ _) (toNat_sub_byte _ _)⟩

/-- Settles O38: each shift writes the shifted source and then the bit that left it, under any parameters. -/
theorem shiftsStoreTheBitShiftedOut : Obligations.ShiftsStoreTheBitShiftedOut := by
  intro x y
  refine ⟨⟨decodeInvertsEncode (.shiftRight x y) rfl, decodeInvertsEncode (.shiftLeft x y) rfl⟩, fun s src hsrc => ?_⟩
  obtain rfl : src = shiftSource s.config.shiftSrc (s.getV x) (s.getV y) := hsrc.trans (shiftSource_eq ..).symm
  exact ⟨exec_of_setV_flag rfl (toNat_byte_shiftRight_one _) (flagByte_bit0_toNat _),
    exec_of_setV_flag rfl (toNat_byte_shiftLeft_one _) (flagByte_bit7_toNat _)⟩

/-- Settles O39: the draw is the sampled RAND8, and the handler is one write of V[x]. -/
theorem setRandMasksTheDraw : Obligations.SetRandMasksTheDraw := fun x nn =>
  ⟨decodeInvertsEncode (.setRand x nn) rfl, fun _ _ _ => exec_of_setV rfl⟩

end Sys2Proof.Machine
end

section
/-! Index and memory (`43_memory_index.md`): the values that I takes, the block that an access through I reads or writes, or
the fault in its place, and from that the statements for each instruction (R260 to R265). -/

namespace Sys2Proof.Machine

variable {s : State} {i : Instr} {x : Nibble} {n : Nat}

/-! ## The index register (R260 to R262, R16) -/

/-- A handler that sets I leaves its value there and changes nothing else. -/
theorem exec_of_setI {a : Word} (he : exec i s = .next (s.setI a)) (ha : a.toNat = n) :
    ∃ t, exec i s = .next t ∧ t.i.toNat = n ∧ ChangesOnlyIn [.i] s t :=
  ⟨_, he, ha, changesOnly_setI (by simp)⟩

/-- The sum of AddIndex is modulo 2^16 (R261). -/
theorem toNat_add_zeroExtend_byte (a : Word) (b : Byte) :
    (a + b.zeroExtend 16).toNat = (a.toNat + b.toNat) % 2 ^ 16 := by
  rw [BitVec.toNat_add, BitVec.zeroExtend, BitVec.toNat_setWidth_of_le (by decide)]

/-- The mask that FontAddr applies leaves the low nibble (R262). -/
theorem toNat_and_lowNibble (b : Byte) : (b &&& 0xF).toNat = b.toNat % 16 :=
  (BitVec.toNat_and ..).trans (Nat.and_two_pow_sub_one_eq_mod b.toNat 4)

/-- The glyph of a low nibble starts at 5 bytes a glyph from FONT_BASE (R262). -/
theorem glyphAddr_toNat (b : Byte) : (glyphAddr b).toNat = 0x050 + b.toNat % 16 * 5 := by
  have hlow : ((b &&& 0xF).zeroExtend 16 : Word).toNat = b.toNat % 16 :=
    (BitVec.toNat_setWidth_of_le (by decide)).trans (toNat_and_lowNibble b)
  rw [glyphAddr, BitVec.toNat_add, BitVec.toNat_mul, hlow]
  show (0x050 + b.toNat % 16 * 5 % 2 ^ 16) % 2 ^ 16 = _
  omega

/-- I after a block access, by P_LS_INC_I (R16). -/
theorem State.indexAfterBlock_toNat (s : State) (x : Nibble) : (s.indexAfterBlock x).toNat =
    if s.config.lsIncI = true then (s.i.toNat + x.toNat + 1) % 2 ^ 16 else s.i.toNat := by
  have hx : (x.zeroExtend 16 : Word).toNat = x.toNat := BitVec.toNat_setWidth_of_le (by decide)
  rw [State.indexAfterBlock, apply_ite BitVec.toNat, BitVec.toNat_add, BitVec.toNat_add, hx]
  exact congrArg (ite _ · _) (Nat.mod_add_mod ..)

/-! ## The digits of a byte as numbers (R263) -/

theorem toNat_hundreds (b : Byte) : (b / 100).toNat = b.toNat / 100 := BitVec.toNat_udiv ..

theorem toNat_tens (b : Byte) : (b / 10 % 10).toNat = b.toNat / 10 % 10 :=
  (BitVec.toNat_umod ..).trans (congrArg (· % 10) (BitVec.toNat_udiv ..))

theorem toNat_units (b : Byte) : (b % 10).toNat = b.toNat % 10 := BitVec.toNat_umod ..

/-! ## Accesses through I (R90) -/

/-- An access whose last address is out of range raises its fault, with the lowest such address (R90, R361). -/
theorem State.throughIndex_raises (h : 0xFFF < s.i.toNat + n) (i : Instr) (c : FaultCause) (effect : State) :
    ∃ t, s.throughIndex i c (n + 1) effect = .next t ∧ Raised i c (max s.i.toNat 0x1000) s t := by
  have hout : ¬ s.BlockInRange (n + 1) := by
    rintro (hzero | hin)
    · exact Nat.succ_ne_zero n hzero
    · exact Nat.not_le.2 h hin
  exact ⟨_, if_neg hout, raised_raise _ _ _⟩

/-- LoadRegs in range loads V0..Vx from I (R265). -/
theorem exec_loadRegs_of_inRange (h : s.i.toNat + x.toNat ≤ 0xFFF) : exec (.loadRegs x) s =
    .next ((s.loadV 0 (s.readBytes (s.indexAddr 0) (x.toNat + 1))).setI (s.indexAfterBlock x)) :=
  State.throughIndex_of_inRange (.inr h) _ _ _

/-- The k-th register of a block loaded through I holds the byte at I + k. -/
theorem State.getV_loadV_indexAddr (s : State) (hn : n ≤ 16) {k : Nibble} (hk : k.toNat < n) :
    (s.loadV 0 (s.readBytes (s.indexAddr 0) n)).getV k = s.readByte (s.indexAddr k.toNat) := by
  rw [State.loadV_getV _ _ _ (by simpa using hn), dif_pos (by simpa using hk)]
  exact s.readBytes_getElem (s.indexAddr 0) n k.toNat hk

/-- What memory holds at an address depends on the memory and the configuration only. -/
theorem State.readByte_congr {s t : State} (hmem : s.mem = t.mem) (hconfig : s.config = t.config) (a : Nat) :
    s.readByte a = t.readByte a := by
  rw [State.readByte, hmem, hconfig, State.readByte]

/-! ## The statements -/

/-- Settles O40: each handler only sets I, and the three values are as numbers what the rules state. -/
theorem indexInstructionsSetI : Obligations.IndexInstructionsSetI := fun nnn x =>
  ⟨⟨decodeInvertsEncode (.setIndex nnn) rfl, decodeInvertsEncode (.addIndex x) rfl,
    decodeInvertsEncode (.fontAddr x) rfl⟩,
  fun _ => ⟨exec_of_setI rfl (zeroExtend_addr_toNat nnn), exec_of_setI rfl (toNat_add_zeroExtend_byte _ _),
    exec_of_setI rfl (glyphAddr_toNat _)⟩⟩

/-- Settles O41: in range Bcd is one block write, of the three digits at I, and out of range it raises its fault. -/
theorem bcdStoresThreeDigits : Obligations.BcdStoresThreeDigits := by
  intro x
  refine ⟨decodeInvertsEncode (.bcd x) rfl, ?inRange, ?outOfRange⟩
  case inRange =>
    intro s h
    have hstored (k : Nat) (hk : k < 3) := s.readByte_writeBytes_indexAddr (bs := bcdDigits (s.getV x)) hk
    have hframe : ChangesOnlyIn [.byte (s.indexAddr 0), .byte (s.indexAddr 1), .byte (s.indexAddr 2)] s
        (s.writeBytes (s.indexAddr 0) (bcdDigits (s.getV x))) := by
      refine changesOnly_writeBytes fun k (hk : k < 3) => ?_
      interval_cases k <;> simp [State.indexAddr]
    exact ⟨_, exec_bcd_of_inRange h, (congrArg BitVec.toNat (hstored 0 (by decide))).trans (toNat_hundreds _),
      (congrArg BitVec.toNat (hstored 1 (by decide))).trans (toNat_tens _),
      (congrArg BitVec.toNat (hstored 2 (by decide))).trans (toNat_units _), hframe⟩
  case outOfRange => exact fun s h => State.throughIndex_raises h _ _ _

/-- Settles O42: in range StoreRegs is one block write, of V0..Vx at I, and the advance of I; out of range it raises its
fault. -/
theorem storeRegsStoresTheBlock : Obligations.StoreRegsStoresTheBlock := by
  intro x
  refine ⟨decodeInvertsEncode (.storeRegs x) rfl, ?inRange, ?outOfRange⟩
  case inRange =>
    intro s h
    refine ⟨_, exec_storeRegs_of_inRange h, fun k hk => ?stored, s.indexAfterBlock_toNat x,
      (changesOnly_writeBytes fun k hk => .inr ⟨k, ?bound, rfl⟩).trans (changesOnly_setI (.inl rfl))⟩
    case stored =>
      rw [State.setI_readByte, State.readByte_writeBytes_indexAddr s (by simp; omega), State.regsUpTo_getElem s x k hk]
    case bound => exact Nat.le_of_lt_succ (hk.trans_eq (s.regsUpTo_length x))
  case outOfRange => exact fun s h => State.throughIndex_raises h _ _ _

/-- Settles O43: in range LoadRegs is one block load, of V0..Vx from I, and the advance of I; out of range it raises its
fault. -/
theorem loadRegsLoadsTheBlock : Obligations.LoadRegsLoadsTheBlock := by
  intro x
  have hx : x.toNat + 1 ≤ 16 := x.isLt
  refine ⟨decodeInvertsEncode (.loadRegs x) rfl, ?inRange, ?outOfRange⟩
  case inRange =>
    intro s h
    refine ⟨_, exec_loadRegs_of_inRange h, fun k hk => ?loaded, s.indexAfterBlock_toNat x,
      (changesOnly_loadV (by simpa using hx) fun k _ hk => .inr ⟨k, ?bound, rfl⟩).trans (changesOnly_setI (.inl rfl))⟩
    case loaded => rw [State.setI_getV, State.getV_loadV_indexAddr s hx (Nat.lt_succ_of_le hk)]
    case bound => rw [State.readBytes_length] at hk; omega
  case outOfRange => exact fun s h => State.throughIndex_raises h _ _ _

/-- Settles O44: the load reads through the same I the bytes that the store left there. -/
theorem loadRestoresWhatStoreSaved : Obligations.LoadRestoresWhatStoreSaved := by
  intro x s t u h hstore hmem hconfig hi
  obtain ⟨-, hstores, -⟩ := storeRegsStoresTheBlock x
  obtain ⟨t', hstore', hstored, -, -⟩ := hstores s h
  cases hstore'.symm.trans hstore
  obtain ⟨-, hloads, -⟩ := loadRegsLoadsTheBlock x
  obtain ⟨r, hload, hloaded, -, -⟩ := hloads u (hi ▸ h)
  refine ⟨r, hload, fun k hk => ?_⟩
  calc r.getV k = u.readByte (u.indexAddr k.toNat) := hloaded k hk
    _ = t.readByte (s.indexAddr k.toNat) := by
      rw [State.readByte_congr hmem hconfig, State.indexAddr, hi, State.indexAddr]
    _ = s.getV k := hstored k hk

end Sys2Proof.Machine
end

section
/-! The display (`44_display.md`): a sprite's lit bits fall on distinct pixels, so that Draw, which toggles them one by one,
flips each covered pixel once; from that the statements for ClearScreen and Draw (R291 to R293). -/

namespace Sys2Proof.Machine

variable {s : State} {x y n : Nibble} {edge : DrawEdge} {cx cy r c : Nat} {p q u : Canvas}

/-! ## Which pixels a sprite covers -/

/-- Bit c of sprite row r is lit in a byte and falls on a pixel (R292). -/
def BitCovers (edge : DrawEdge) (cx cy r c : Nat) (b : Byte) (row : Fin 32) (col : Fin 64) : Prop :=
  b.getLsbD (7 - c) = true ∧ spriteTarget edge cx cy r c = some (row, col)

/-- A lit bit of a byte, drawn as sprite row r, falls on a pixel. -/
def RowCovers (edge : DrawEdge) (cx cy r : Nat) (b : Byte) (row : Fin 32) (col : Fin 64) : Prop :=
  ∃ c < 8, BitCovers edge cx cy r c b row col

/-- A lit bit of the bytes, drawn as the sprite rows r, r+1, .., falls on a pixel. -/
def RowsCover (edge : DrawEdge) (cx cy r : Nat) (bs : List Byte) (row : Fin 32) (col : Fin 64) : Prop :=
  ∃ k, ∃ h : k < bs.length, RowCovers edge cx cy (r + k) bs[k] row col

/-- A sprite's first row covers what it covers, and the rest lie one row further on. -/
theorem rowsCover_cons {b : Byte} {bs : List Byte} {row : Fin 32} {col : Fin 64} :
    RowsCover edge cx cy r (b :: bs) row col ↔
      RowCovers edge cx cy r b row col ∨ RowsCover edge cx cy (r + 1) bs row col := by
  constructor
  · rintro ⟨_ | k, hk, h⟩
    · exact .inl h
    · exact .inr ⟨k, Nat.lt_of_succ_lt_succ hk, by rwa [Nat.add_right_comm]⟩
  · rintro (h | ⟨k, hk, h⟩)
    · exact ⟨0, Nat.zero_lt_succ _, h⟩
    · exact ⟨k + 1, Nat.succ_lt_succ hk, by rwa [Nat.add_right_comm] at h⟩

/-- A sprite is smaller than the display, so no two of its bits fall on one pixel, wrapped or not. -/
theorem spriteTarget_inj {r' c' : Nat} {row : Fin 32} {col : Fin 64} (hr : r < 32) (hr' : r' < 32) (hc : c < 64)
    (hc' : c' < 64) (h : spriteTarget edge cx cy r c = some (row, col))
    (h' : spriteTarget edge cx cy r' c' = some (row, col)) : r = r' ∧ c = c' := by
  rw [spriteTarget_eq_some] at h h'
  cases edge <;> dsimp only at h h' <;> omega

/-- The obligations' covering relation is the one of the bytes that Draw reads. -/
theorem spriteCovers_iff {row : Fin 32} {col : Fin 64} : SpriteCovers s x y n row col ↔
    RowsCover s.config.drawEdge (s.startCol x) (s.startRow y) 0 (s.readBytes (s.indexAddr 0) n.toNat) row col := by
  simp only [SpriteCovers, RowsCover, RowCovers, BitCovers, spriteTarget_eq_some, State.readBytes_length]
  refine exists_congr fun r => exists_prop.symm.trans (exists_congr fun hr => ?_)
  rw [State.readBytes_getElem _ _ _ _ hr, Nat.zero_add]
  rfl

/-! ## What drawing does to a canvas -/

/-- From p to q exactly the pixels of a set are flipped, and a hit is added where one of them was lit. -/
structure Canvas.Flips (p q : Canvas) (S : Fin 32 → Fin 64 → Prop) : Prop where
  flipped : ∀ row col, S row col → q.disp.pixel row col = !p.disp.pixel row col
  kept : ∀ row col, ¬ S row col → q.disp.pixel row col = p.disp.pixel row col
  hit : q.hit = true ↔ p.hit = true ∨ ∃ row col, S row col ∧ p.disp.pixel row col = true

/-- Drawing on no pixel. -/
theorem Canvas.Flips.refl {S : Fin 32 → Fin 64 → Prop} (hS : ∀ row col, ¬ S row col) : p.Flips p S :=
  ⟨fun row col h => absurd h (hS row col), fun _ _ _ => rfl, by simp [hS]⟩

/-- Drawing on two disjoint sets of pixels in turn draws on their union. -/
theorem Canvas.Flips.trans {S T U : Fin 32 → Fin 64 → Prop} (hpq : p.Flips q S) (hqu : q.Flips u T)
    (hdisj : ∀ row col, S row col → ¬ T row col) (hunion : ∀ row col, U row col ↔ S row col ∨ T row col) :
    p.Flips u U where
  flipped row col h := by
    rcases (hunion row col).1 h with hS | hT
    · rw [hqu.kept row col (hdisj row col hS), hpq.flipped row col hS]
    · rw [hqu.flipped row col hT, hpq.kept row col fun hS => hdisj row col hS hT]
  kept row col h := by
    obtain ⟨hS, hT⟩ := not_or.1 ((hunion row col).not.1 h)
    rw [hqu.kept row col hT, hpq.kept row col hS]
  hit := by
    have hT : (∃ row col, T row col ∧ q.disp.pixel row col = true) ↔ ∃ row col, T row col ∧ p.disp.pixel row col = true :=
      exists₂_congr fun row col => and_congr_right fun hT => by rw [hpq.kept row col fun hS => hdisj row col hS hT]
    simp only [hqu.hit, hpq.hit, hT, hunion, or_and_right, exists_or, or_assoc]

/-- One bit flips the pixel it covers. -/
theorem Canvas.drawPixel_flips (p : Canvas) (b : Byte) :
    p.Flips (p.drawPixel edge cx cy r c (b.getLsbD (7 - c))) (BitCovers edge cx cy r c b) := by
  rcases p.drawPixel_cases edge cx cy r c (b.getLsbD (7 - c)) with ⟨hsame, hnone⟩ | ⟨row, col, hbit, htarget, hdraw⟩
  · rw [hsame]
    refine .refl fun row col ⟨hbit, htarget⟩ => ?_
    rcases hnone with hoff | hdropped
    · exact Bool.false_ne_true (hoff.symm.trans hbit)
    · exact Option.some_ne_none _ (htarget.symm.trans hdropped)
  · have hcovers (row' col') : BitCovers edge cx cy r c b row' col' ↔ row' = row ∧ col' = col := by
      simp [BitCovers, hbit, htarget, eq_comm]
    rw [hdraw]
    refine ⟨fun row' col' h => ?_, fun row' col' h => ?_, ?_⟩
    · obtain ⟨rfl, rfl⟩ := (hcovers row' col').1 h
      simp [Display.pixel_toggle]
    · rw [Display.pixel_toggle, if_neg ((hcovers row' col').not.1 h)]
    · simp [hcovers]

/-- The bits of one row, taken at distinct columns, flip the pixels they cover. -/
theorem Canvas.foldl_drawPixel_flips (b : Byte) (hr : r < 32) : ∀ (cs : List Nat) (p : Canvas), cs.Nodup →
    (∀ c ∈ cs, c < 64) → p.Flips (cs.foldl (fun p c => p.drawPixel edge cx cy r c (b.getLsbD (7 - c))) p)
      fun row col => ∃ c ∈ cs, BitCovers edge cx cy r c b row col
  | [], _, _, _ => .refl (by simp)
  | c :: cs, p, hnodup, hlt => by
    obtain ⟨hc, hnodup⟩ := List.nodup_cons.1 hnodup
    obtain ⟨hclt, hlt⟩ := List.forall_mem_cons.1 hlt
    refine (p.drawPixel_flips b).trans (Canvas.foldl_drawPixel_flips b hr cs _ hnodup hlt) ?_ (by simp)
    rintro row col ⟨-, htarget⟩ ⟨c', hc', -, htarget'⟩
    exact hc ((spriteTarget_inj hr hr hclt (hlt c' hc') htarget htarget').2 ▸ hc')

/-- One sprite row flips the pixels it covers. -/
theorem Canvas.drawRow_flips (p : Canvas) (b : Byte) (hr : r < 32) :
    p.Flips (p.drawRow edge cx cy r b) (RowCovers edge cx cy r b) := by
  have h := Canvas.foldl_drawPixel_flips (edge := edge) (cx := cx) (cy := cy) b hr (List.range 8) p List.nodup_range
    fun c hc => (List.mem_range.1 hc).trans (by decide)
  simp only [List.mem_range] at h
  exact h

/-- The sprite rows flip the pixels they cover. -/
theorem Canvas.drawRows_flips : ∀ (bs : List Byte) (p : Canvas) (r : Nat), r + bs.length ≤ 32 →
    p.Flips (p.drawRows edge cx cy r bs) (RowsCover edge cx cy r bs)
  | [], _, _, _ => .refl (by simp [RowsCover])
  | b :: bs, p, r, hlen => by
    rw [List.length_cons] at hlen
    refine (p.drawRow_flips b (by omega)).trans (Canvas.drawRows_flips bs _ (r + 1) (by omega)) ?_
      fun row col => rowsCover_cons
    rintro row col ⟨c, hc, -, htarget⟩ ⟨k, hk, c', hc', -, htarget'⟩
    have := (spriteTarget_inj (by omega) (by omega) (by omega) (by omega) htarget htarget').1
    omega

/-! ## The state after Draw -/

/-- The state that Draw of an in-range sprite leaves (R292). -/
def State.drawn (s : State) (x y n : Nibble) : State :=
  (s.setDisp (s.drawSprite x y n).disp).setV vf (flagByte (s.drawSprite x y n).hit)

theorem exec_draw_of_inRange (h : n = 0 ∨ s.i.toNat + n.toNat - 1 ≤ 0xFFF) :
    exec (.draw x y n) s = .next (s.drawn x y n) :=
  State.throughIndex_of_inRange (h.imp_left (congrArg BitVec.toNat)) _ _ _

/-- The sprite flips exactly the covered pixels, and hits where one of them was lit. -/
theorem State.drawSprite_flips (s : State) (x y n : Nibble) :
    Canvas.Flips ⟨s.disp, false⟩ (s.drawSprite x y n) (SpriteCovers s x y n) := by
  have hcovers : SpriteCovers s x y n = RowsCover s.config.drawEdge (s.startCol x) (s.startRow y) 0
      (s.readBytes (s.indexAddr 0) n.toNat) := funext₂ fun _ _ => propext spriteCovers_iff
  rw [hcovers]
  exact Canvas.drawRows_flips _ _ 0 (by have := n.isLt; simp; omega)

theorem State.pixel_drawn_of_covers {row : Fin 32} {col : Fin 64} (h : SpriteCovers s x y n row col) :
    (s.drawn x y n).disp.pixel row col = !s.disp.pixel row col :=
  (s.drawSprite_flips x y n).flipped row col h

theorem State.pixel_drawn_of_not_covers {row : Fin 32} {col : Fin 64} (h : ¬ SpriteCovers s x y n row col) :
    (s.drawn x y n).disp.pixel row col = s.disp.pixel row col :=
  (s.drawSprite_flips x y n).kept row col h

/-- VF ends as the collision flag (R292, R293). -/
theorem State.getV_vf_drawn (s : State) (x y n : Nibble) :
    (s.drawn x y n).getV 0xF = flagByte (s.drawSprite x y n).hit :=
  State.getV_setV_self _ vf _

theorem State.drawSprite_hit_iff :
    (s.drawSprite x y n).hit = true ↔ ∃ row col, SpriteCovers s x y n row col ∧ s.disp.pixel row col = true := by
  simpa using (s.drawSprite_flips x y n).hit

theorem flagByte_eq_one_iff {f : Bool} : flagByte f = 1 ↔ f = true := by
  cases f <;> decide

/-- Draw by registers other than VF leaves everything that its sprite's place depends on. -/
theorem State.spriteCovers_drawn (hx : x ≠ 0xF) (hy : y ≠ 0xF) {row : Fin 32} {col : Fin 64} :
    SpriteCovers (s.drawn x y n) x y n row col ↔ SpriteCovers s x y n row col := by
  have hgetV (z : Nibble) (hz : z ≠ 0xF) : (s.drawn x y n).getV z = s.getV z := State.getV_setV_of_ne _ hz _
  simp only [SpriteCovers, hgetV x hx, hgetV y hy]
  rfl

/-! ## The statements -/

/-- Settles O48: the handler only sets the display, to the one without a lit pixel. -/
theorem clearScreenClearsEveryPixel : Obligations.ClearScreenClearsEveryPixel :=
  ⟨decodeInvertsEncode .clearScreen rfl, fun _ =>
    ⟨_, rfl, Display.pixel_clear, changesOnly_setDisp fun row col _ => ⟨row, col, rfl⟩⟩⟩

/-- Settles O49: a sprite's bits fall on distinct pixels, so each covered pixel is toggled once and tested as it was
before the draw. -/
theorem drawXorsTheSprite : Obligations.DrawXorsTheSprite := by
  intro x y n
  refine ⟨decodeInvertsEncode (.draw x y n) rfl, ?inRange, ?outOfRange⟩
  case inRange =>
    intro s h
    refine ⟨_, exec_draw_of_inRange h, fun row col => State.pixel_drawn_of_covers, fun hlit => ?hit, fun hoff => ?noHit,
      (changesOnly_setDisp fun row col hne => .inr ⟨row, col, ?covered, rfl⟩).trans (changesOnly_setV (.inl rfl))⟩
    case hit => rw [State.getV_vf_drawn, flagByte_eq_one_iff, State.drawSprite_hit_iff]; exact hlit
    case noHit =>
      have hmiss : (s.drawSprite x y n).hit = false := by
        rw [Bool.eq_false_iff, ne_eq, State.drawSprite_hit_iff]
        rintro ⟨row, col, hcovers, hlit⟩
        exact Bool.false_ne_true ((hoff row col hcovers).symm.trans hlit)
      rw [State.getV_vf_drawn, hmiss]
      rfl
    case covered => exact not_imp_comm.1 State.pixel_drawn_of_not_covers hne
  case outOfRange =>
    intro s hn h
    obtain ⟨m, hm⟩ := Nat.exists_eq_succ_of_ne_zero fun h0 : n.toNat = 0 => hn (BitVec.eq_of_toNat_eq h0)
    have hout : 0xFFF < s.i.toNat + m := by omega
    show ∃ t, s.throughIndex _ _ n.toNat _ = .next t ∧ _
    rw [hm]
    exact State.throughIndex_raises hout _ _ _

/-- Settles O50: the second draw covers the same pixels, so it flips the first one's flips back and finds lit exactly the
covered pixels that were off. -/
theorem drawTwiceRestoresTheDisplay : Obligations.DrawTwiceRestoresTheDisplay := by
  intro x y n s t hx hy h hdraw
  cases (exec_draw_of_inRange h).symm.trans hdraw
  refine ⟨_, exec_draw_of_inRange h, Display.ext_pixel fun row col => ?pixel, ?hit⟩
  case pixel =>
    by_cases hcovers : SpriteCovers s x y n row col
    · rw [State.pixel_drawn_of_covers ((State.spriteCovers_drawn hx hy).2 hcovers),
        State.pixel_drawn_of_covers hcovers, Bool.not_not]
    · rw [State.pixel_drawn_of_not_covers ((State.spriteCovers_drawn hx hy).not.2 hcovers),
        State.pixel_drawn_of_not_covers hcovers]
  case hit =>
    rw [State.getV_vf_drawn, flagByte_eq_one_iff, State.drawSprite_hit_iff]
    refine exists₂_congr fun row col => ?_
    rw [State.spriteCovers_drawn hx hy]
    exact and_congr_right fun hcovers => by rw [State.pixel_drawn_of_covers hcovers, Bool.not_eq_true']

end Sys2Proof.Machine
end

section
/-! Timers, keys and the host's events (`45_timers_input.md`): what the key skips answer in each of their cases, what a key
event does in each run state, and from that the statements for the timers, the keys and the tick (R321 to R330). -/

namespace Sys2Proof.Machine

variable {s : State} {x : Nibble}

/-! ## The outputs and inputs of the block -/

/-- `sound_active` is ST ≠ 0 (R322). -/
theorem State.soundActive_iff : s.soundActive = true ↔ s.st ≠ 0 := bne_iff_ne

/-- The number of a key, written to a register, is the number of the event (R330). -/
theorem zeroExtend_nibble_toNat (k : Nibble) : (k.zeroExtend 8).toNat = k.toNat :=
  BitVec.toNat_setWidth_of_le (by decide)

/-! ## The key skips, by whether V[x] names a key (R324, R325) -/

theorem exec_skipIfKeyDown_of_key (h : (s.getV x).toNat ≤ 15) :
    exec (.skipIfKeyDown x) s = .next (s.skipIf (s.keyDown (s.getV x).toNat)) := if_neg (Nat.not_lt.2 h)

theorem exec_skipIfKeyUp_of_key (h : (s.getV x).toNat ≤ 15) :
    exec (.skipIfKeyUp x) s = .next (s.skipIf (!s.keyDown (s.getV x).toNat)) := if_neg (Nat.not_lt.2 h)

theorem exec_skipIfKeyDown_of_noKey (h : 15 < (s.getV x).toNat) :
    exec (.skipIfKeyDown x) s = .next (s.raise (.skipIfKeyDown x) .keyOutOfRange (s.getV x).toNat) := if_pos h

theorem exec_skipIfKeyUp_of_noKey (h : 15 < (s.getV x).toNat) :
    exec (.skipIfKeyUp x) s = .next (s.raise (.skipIfKeyUp x) .keyOutOfRange (s.getV x).toNat) := if_pos h

/-! ## A key event, by the run state (R330) -/

theorem State.deliverKeyEvent_awaiting (h : s.runstate = .awaitingKey x) (k : Nibble) :
    s.deliverKeyEvent k = (s.setV x (k.zeroExtend 8)).setRunstate .running := by
  simp only [State.deliverKeyEvent, h]

theorem State.deliverKeyEvent_running (h : s.runstate = .running) (k : Nibble) : s.deliverKeyEvent k = s := by
  simp only [State.deliverKeyEvent, h]

/-! ## The statements -/

/-- Settles O51: each handler is one write, of the register or of the timer. -/
theorem timerInstructionsCopy : Obligations.TimerInstructionsCopy := by
  intro x
  refine ⟨⟨decodeInvertsEncode (.getDelay x) rfl, decodeInvertsEncode (.setDelay x) rfl,
    decodeInvertsEncode (.setSound x) rfl⟩, fun s => ⟨exec_of_setV rfl, ?setDelay, ?setSound⟩⟩
  case setDelay => exact ⟨_, rfl, rfl, changesOnly_setDt (by simp)⟩
  case setSound => exact ⟨_, rfl, rfl, State.soundActive_iff, changesOnly_setSt (by simp)⟩

/-- Settles O52: where V[x] names a key each handler is a skip on that bit of KEYS or on its complement, and elsewhere it
raises its fault. -/
theorem keySkipsTestTheKey : Obligations.KeySkipsTestTheKey := by
  intro x
  refine ⟨⟨decodeInvertsEncode (.skipIfKeyDown x) rfl, decodeInvertsEncode (.skipIfKeyUp x) rfl⟩,
    fun s h => ⟨?down, ?up⟩, fun s h => ?noKey⟩
  case down => exact exec_of_skipIf (exec_skipIfKeyDown_of_key h) Iff.rfl
  case up =>
    have hup : (!s.keyDown (s.getV x).toNat) = true ↔ ¬ s.host.keys.getLsbD (s.getV x).toNat = true := by
      rw [Bool.not_eq_true', ← Bool.not_eq_true, State.keyDown]
    simpa only [ite_not] using exec_of_skipIf (exec_skipIfKeyUp_of_key h) hup
  case noKey =>
    exact ⟨⟨_, exec_skipIfKeyDown_of_noKey h, raised_raise _ _ _⟩, ⟨_, exec_skipIfKeyUp_of_noKey h, raised_raise _ _ _⟩⟩

/-- Settles O53: the handler only sets the run state. -/
theorem waitKeySuspends : Obligations.WaitKeySuspends := fun x =>
  ⟨decodeInvertsEncode (.waitKey x) rfl, fun _ => ⟨_, rfl, rfl, changesOnly_setRunstate (by simp)⟩⟩

/-- Settles O54: the event writes the pending register and resumes, and without a pending wait it is the identity. -/
theorem keyEventCompletesTheWait : Obligations.KeyEventCompletesTheWait := by
  intro s k
  refine ⟨fun x h => ?completes, fun h => congrArg Host.Outcome.next (h.elim ?running ?faulted)⟩
  case completes =>
    have hkey : (((s.setV x (k.zeroExtend 8)).setRunstate .running).getV x).toNat = k.toNat := by
      rw [State.setRunstate_getV, State.getV_setV_self, zeroExtend_nibble_toNat]
    exact ⟨_, congrArg _ (State.deliverKeyEvent_awaiting h k), hkey, rfl,
      (changesOnly_setV (by simp)).trans (changesOnly_setRunstate (by simp))⟩
  case running => exact fun h => State.deliverKeyEvent_running h k
  case faulted => exact fun h => State.deliverKeyEvent_faulted h k

/-- Settles O56: a tick sets the two timers, each to its decrement, whatever the run state. -/
theorem tickDecrementsTheTimers : Obligations.TickDecrementsTheTimers := fun s =>
  ⟨State.soundActive_iff, _, rfl, tickTimer_toNat s.dt, tickTimer_toNat s.st, changesOnly_tickTimers (by simp) (by simp)⟩

end Sys2Proof.Machine
end

section
/-! Exceptions (`60_exceptions.md`): what a handler does to the run state and the fault record, by R361's table, and from
that the statements on faults (R361 to R363) and on AWAITING_KEY (R373). -/

namespace Sys2Proof.Machine

variable {s t : State} {i : Instr} {keys : BitVec 16} {rand8 : Byte}

/-! ## The handlers, by the fault table (R361) -/

/-- An access through I that is not in range raises its fault (R90). -/
theorem State.throughIndex_of_outOfRange {n : Nat} (h : 0 < n ∧ 0xFFF < s.i.toNat + n - 1) (i : Instr) (c : FaultCause)
    (effect : State) : s.throughIndex i c n effect = .next (s.raise i c (max s.i.toNat 0x1000)) :=
  if_neg (by simp only [State.BlockInRange, InRange]; omega)

/-- A handler that has a row of the table for the state raises the row's fault. -/
theorem exec_of_faultOf_eq_some {cause : FaultCause} {info : Nat} (h : faultOf i s = some (cause, info)) :
    exec i s = .next (s.raise i cause info) := by
  cases i with
  | call nnn => obtain ⟨hsp, ⟨⟩⟩ := Option.ite_none_right_eq_some.1 h; exact exec_call_of_full hsp nnn
  | ret => obtain ⟨hsp, ⟨⟩⟩ := Option.ite_none_right_eq_some.1 h; exact exec_ret_of_empty hsp
  | skipIfKeyDown x => obtain ⟨hkey, ⟨⟩⟩ := Option.ite_none_right_eq_some.1 h; exact exec_skipIfKeyDown_of_noKey hkey
  | skipIfKeyUp x => obtain ⟨hkey, ⟨⟩⟩ := Option.ite_none_right_eq_some.1 h; exact exec_skipIfKeyUp_of_noKey hkey
  | draw | bcd | storeRegs | loadRegs =>
    obtain ⟨hout, ⟨⟩⟩ := Option.ite_none_right_eq_some.1 h
    exact State.throughIndex_of_outOfRange (by omega) _ _ _
  | _ => cases h

/-- A handler that has no row of the table for the state leaves the fault record, and the run state unless it is
WaitKey. -/
theorem exec_of_faultOf_eq_none (hf : faultOf i s = none) (h : exec i s = .next t) :
    t.fault = s.fault ∧ (t.runstate = s.runstate ∨ ∃ x, i = .waitKey x ∧ t.runstate = .awaitingKey x) := by
  cases i with
  | call nnn =>
    have hsp : s.sp.val ≠ 16 := by simpa [faultOf] using hf
    cases (exec_call_of_room (by omega) nnn).symm.trans h
    exact ⟨rfl, .inl rfl⟩
  | ret =>
    have hsp : s.sp.val ≠ 0 := by simpa [faultOf] using hf
    cases (exec_ret_of_occupied hsp).symm.trans h
    exact ⟨rfl, .inl rfl⟩
  | skipIfKeyDown x =>
    have hkey : (s.getV x).toNat ≤ 15 := by simpa [faultOf] using hf
    cases (exec_skipIfKeyDown_of_key hkey).symm.trans h
    exact ⟨by simp, .inl (by simp)⟩
  | skipIfKeyUp x =>
    have hkey : (s.getV x).toNat ≤ 15 := by simpa [faultOf] using hf
    cases (exec_skipIfKeyUp_of_key hkey).symm.trans h
    exact ⟨by simp, .inl (by simp)⟩
  | draw x y n =>
    have hin : 0 < n.toNat → s.i.toNat + n.toNat - 1 ≤ 0xFFF := by simpa [faultOf] using hf
    cases (exec_draw_of_inRange (by bv_omega)).symm.trans h
    exact ⟨rfl, .inl rfl⟩
  | bcd x =>
    have hin : s.i.toNat + 2 ≤ 0xFFF := by simpa [faultOf] using hf
    cases (exec_bcd_of_inRange hin).symm.trans h
    exact ⟨rfl, .inl rfl⟩
  | storeRegs x =>
    have hin : s.i.toNat + x.toNat ≤ 0xFFF := by simpa [faultOf] using hf
    cases (exec_storeRegs_of_inRange hin).symm.trans h
    exact ⟨rfl, .inl rfl⟩
  | loadRegs x =>
    have hin : s.i.toNat + x.toNat ≤ 0xFFF := by simpa [faultOf] using hf
    cases (exec_loadRegs_of_inRange hin).symm.trans h
    exact ⟨by simp, .inl (by simp)⟩
  | waitKey x => cases h; exact ⟨rfl, .inr ⟨x, rfl, rfl⟩⟩
  | _ => cases h; exact ⟨by simp, .inl (by simp)⟩

/-- The cause of a failed fetch is no handler's (R361). -/
theorem cause_ne_fetchOutOfRange {cause : FaultCause} {info : Nat} (h : faultOf i s = some (cause, info)) :
    cause ≠ .fetchOutOfRange := by
  cases i with
  | call | ret | skipIfKeyDown | skipIfKeyUp | draw | bcd | storeRegs | loadRegs =>
    obtain ⟨-, ⟨⟩⟩ := Option.ite_none_right_eq_some.1 h
    nofun
  | _ => cases h

/-- Settles O15: with a row of the table the handler raises the row's fault; with none it leaves the record and does not
enter FAULTED. -/
theorem handlersFaultExactlyByTheTable : Obligations.HandlersFaultExactlyByTheTable := by
  intro i s t hs h
  split
  next cause info hf =>
    cases (exec_of_faultOf_eq_some hf).symm.trans h
    exact raised_raise i cause info
  next hf =>
    obtain ⟨hfault, hrun | ⟨x, -, hrun⟩⟩ := exec_of_faultOf_eq_none hf h
    · exact ⟨hrun ▸ hs, hfault⟩
    · exact ⟨by simp [hrun], hfault⟩

/-! ## The step of a RUNNING block that ends FAULTED (R362, R363) -/

/-- What a step of a RUNNING block can do: run the decoded instruction, run the Undefined no-op, or fault at the fetch
(R150). -/
theorem State.stepCore_running_cases (hrun : s.runstate = .running) (h : s.stepCore keys rand8 = .next t) :
    (∃ i, decode s.fetchWord = some i ∧ exec i (s.sampleInputs keys rand8).advancePc = .next t) ∨
    t = (s.sampleInputs keys rand8).advancePc ∨
    t = (s.sampleInputs keys rand8).enterFault .fetchOutOfRange s.pc 0 s.fetchFaultInfo := by
  rw [State.stepCore_running hrun] at h
  rcases (s.sampleInputs keys rand8).fetchExecute_cases with ⟨i, -, hd, he⟩ | ⟨-, -, he⟩ | ⟨-, he⟩ <;> rw [he] at h
  · exact .inl ⟨i, s.fetchWord_sampleInputs keys rand8 ▸ hd, h⟩
  · cases h; exact .inr (.inl rfl)
  · cases h; exact .inr (.inr rfl)

/-- Before the handler runs, a step has changed PC and the host's side only. -/
theorem changesOnly_fetched {p : Element → Prop} (hpc : p .pc) (hhost : p .host) :
    ChangesOnly p s (s.sampleInputs keys rand8).advancePc :=
  (changesOnly_sampleInputs hhost).trans (changesOnly_advancePc hpc)

/-- Settles O16: a handler that ends FAULTED has raised a fault of the table, on the state with PC advanced by 2, in the
name of the decoded instruction, whose word is the fetched one; a failed fetch faults with PC as it was. -/
theorem faultsArePrecise : Obligations.FaultsArePrecise := by
  intro s t keys rand8 hrun h ht
  rcases State.stepCore_running_cases hrun h with ⟨i, hd, he⟩ | rfl | rfl
  case inl =>
    have hs : (s.sampleInputs keys rand8).advancePc.runstate ≠ .faulted := by simp [hrun]
    have htable := handlersFaultExactlyByTheTable i _ t hs he
    split at htable
    next cause info hf =>
      have hcause : cause ≠ .fetchOutOfRange := cause_ne_fetchOutOfRange hf
      obtain ⟨-, hfault, hframe⟩ := htable
      refine ⟨_, hfault, BitVec.add_sub_cancel s.pc 2, ?word, ?pc,
        (changesOnly_fetched (by simp) (by simp)).trans (hframe.mono (by simp +contextual))⟩
      case word => rw [if_neg hcause, encode_of_decode hd]
      case pc => rw [if_neg hcause]; exact hframe .pc (by simp)
    next => exact absurd ht htable.1
  case inr.inl => simp [hrun] at ht
  case inr.inr =>
    exact ⟨_, rfl, rfl, rfl, rfl, (changesOnly_sampleInputs (by simp)).trans (changesOnly_enterFault (by simp) (by simp))⟩

/-! ## AWAITING_KEY (R373) -/

@[simp] theorem State.loadRom_runstate (s : State) (bytes : List Byte) : (s.loadRom bytes).runstate = s.runstate := by
  rcases s.loadRom_cases bytes with ⟨_, he⟩ | ⟨_, he⟩ <;> simp [he]

@[simp] theorem State.tickTimers_runstate (s : State) : s.tickTimers.runstate = s.runstate := rfl

/-- WaitKey is the one handler that enters AWAITING_KEY, for its own register. -/
theorem exec_enters_awaitingKey {x : Nibble} (hs : ∀ z, s.runstate ≠ .awaitingKey z) (h : exec i s = .next t)
    (ht : t.runstate = .awaitingKey x) : i = .waitKey x := by
  cases hf : faultOf i s with
  | some fault =>
    cases (exec_of_faultOf_eq_some hf).symm.trans h
    cases ht
  | none =>
    obtain ⟨-, hkept | ⟨y, rfl, hy⟩⟩ := exec_of_faultOf_eq_none hf h
    · exact absurd (hkept.symm.trans ht) (hs x)
    · cases hy.symm.trans ht; rfl

/-- A step enters AWAITING_KEY only by the WaitKey that it fetched. -/
theorem State.stepCore_enters_awaitingKey {x : Nibble} (hs : ∀ z, s.runstate ≠ .awaitingKey z)
    (h : s.stepCore keys rand8 = .next t) (ht : t.runstate = .awaitingKey x) :
    decode s.fetchWord = some (.waitKey x) := by
  cases hrun : s.runstate with
  | awaitingKey z => exact absurd hrun (hs z)
  | faulted =>
    cases (State.stepCore_faulted hrun keys rand8).symm.trans h
    exact absurd ht (hs x)
  | running =>
    rcases State.stepCore_running_cases hrun h with ⟨i, hd, he⟩ | rfl | rfl
    · cases exec_enters_awaitingKey (s := (s.sampleInputs keys rand8).advancePc) hs he ht
      exact hd
    · exact absurd ht (hs x)
    · cases ht

/-- R373: no transaction but a key event and reset leaves AWAITING_KEY. -/
theorem transact_keepsAwaitingKey {x : Nibble} {r : Request} (hs : s.runstate = .awaitingKey x)
    (h : s.transact r = .next t) (hreset : r ≠ .reset) (hkey : ∀ k, r ≠ .deliverKeyEvent k) :
    t.runstate = .awaitingKey x := by
  cases r with
  | reset => exact absurd rfl hreset
  | loadRom bytes => cases h; exact (s.loadRom_runstate bytes).trans hs
  | step keys rand8 => cases (State.stepCore_awaiting hs keys rand8).symm.trans h; exact hs
  | tickTimers => cases h; exact hs
  | deliverKeyEvent k => exact absurd rfl (hkey k)

/-- R373: no transaction but a step enters AWAITING_KEY, and that step fetched the WaitKey. -/
theorem transact_enters_awaitingKey {x : Nibble} {r : Request} (hs : ∀ z, s.runstate ≠ .awaitingKey z)
    (h : s.transact r = .next t) (ht : t.runstate = .awaitingKey x) :
    (∃ keys rand8, r = .step keys rand8) ∧ decode s.fetchWord = some (.waitKey x) := by
  cases r with
  | step keys rand8 => exact ⟨⟨keys, rand8, rfl⟩, State.stepCore_enters_awaitingKey hs h ht⟩
  | reset => cases h; cases ht
  | loadRom bytes => cases h; exact absurd ((s.loadRom_runstate bytes).symm.trans ht) (hs x)
  | tickTimers => cases h; exact absurd ht (hs x)
  | deliverKeyEvent k =>
    cases h
    rcases s.deliverKeyEvent_cases k with ⟨z, hz, _⟩ | ⟨_, he⟩
    · exact absurd hz (hs z)
    · exact absurd (he ▸ ht) (hs x)

/-- Settles O55: the wait is kept by every transaction that R373 does not name, and entered by the WaitKey of a step. -/
theorem waitIsEnteredAndLeftAsStated : Obligations.WaitIsEnteredAndLeftAsStated := by
  refine ⟨fun s t x r hs h ht => ?left, fun s t x r => transact_enters_awaitingKey⟩
  case left =>
    by_contra! hr
    exact ht (transact_keepsAwaitingKey hs h hr.1 hr.2)

end Sys2Proof.Machine
end

section
/-! Reset, loads and the host's order (`70_reset_and_hazards.md`): what an unlisted byte reads as and what the reset
transaction leaves in each element (R400), the load of a ROM (R403), and the request that each step serves (R407). Last,
the words of the decoder vectors, by the round trip and the lists of Undefined words. -/

namespace Sys2Proof.Machine

variable {s : State}

/-! ## The state after reset (R88, R400) -/

theorem Memory.unlisted_font (font : Font) (k : Fin 80) : Memory.unlisted font (fontBase + k.val) = font.get k := by
  simp [Memory.unlisted, Vector.get_eq_getElem]

theorem Memory.unlisted_outside_font (font : Font) {a : Nat} (h : a < 0x050 ∨ 0x09F < a) :
    Memory.unlisted font a = 0 :=
  dif_neg (by simp only [fontBase]; omega)

@[simp] theorem State.resetBlock_getV (s : State) (x : Nibble) : s.resetBlock.getV x = 0 := Vector.getElem_replicate _

@[simp] theorem State.resetBlock_slot (s : State) (k : Fin 16) : s.resetBlock.stack.get k = 0 :=
  Vector.getElem_replicate _

/-- Reset leaves no byte listed, so every address reads its reset content under the instance's own FONT. -/
@[simp] theorem State.resetBlock_readByte (s : State) (a : Nat) :
    s.resetBlock.readByte a = Memory.unlisted s.config.font a := rfl

/-- Settles O57: the reset transaction answers the state after reset, with this instance's FONT behind the unlisted
bytes; the display is the cleared one. -/
theorem resetSetsEveryElement : Obligations.ResetSetsEveryElement := fun s =>
  ⟨s.resetBlock, rfl, s.resetBlock_getV, rfl, rfl, rfl, s.resetBlock_slot, rfl, rfl, Display.pixel_clear, rfl, rfl,
    fun _ => (s.resetBlock_readByte _).trans (Memory.unlisted_font ..),
    fun _ ha => (s.resetBlock_readByte _).trans (Memory.unlisted_outside_font _ ha)⟩

/-- Settles O18, by the invariant's base case. -/
theorem resetMeetsTheInvariant : Obligations.ResetMeetsTheInvariant := State.Inv.reset

/-! ## The load of a ROM (R403) -/

theorem loadRomReply_of_fits {bytes : List Byte} (h : bytes.length ≤ 3584) : loadRomReply bytes = .ok :=
  if_neg (Nat.not_lt.2 h)

theorem loadRomReply_of_tooLong {bytes : List Byte} (h : 3584 < bytes.length) : loadRomReply bytes = .rejected :=
  if_pos h

/-- Settles O58: a load that fits is the block written at ROM_BASE, and one that is too long is no change; neither looks
at the run state. -/
theorem loadRomWritesOrRejects : Obligations.LoadRomWritesOrRejects := by
  refine fun s bytes => ⟨fun hfits => ⟨?okReply, s.writeBytes romBase bytes, ?okNext, ?bytes, ?frame⟩,
    fun hlong => ⟨?rejectedReply, ?rejectedNext⟩⟩
  case okReply => rw [State.reply, loadRomReply_of_fits hfits]
  case okNext => exact congrArg _ (State.loadRom_of_fits hfits)
  case bytes => exact fun k hk => s.readByte_writeBytes_at romBase k bytes hk
  case frame => exact changesOnly_writeBytes fun k hk => ⟨k, hk, rfl⟩
  case rejectedReply => rw [State.reply, loadRomReply_of_tooLong hlong]
  case rejectedNext => exact congrArg _ (State.loadRom_of_tooLong hlong)

/-! ## The host's order (R19, R407) -/

theorem State.takeRequest_cons {r : Request} {rest : List Request} (h : s.host.requests = r :: rest) :
    s.takeRequest = { s with host := { s.host with requests := rest } } := by simp only [State.takeRequest, h]

theorem State.takeRequest_nil (h : s.host.requests = []) :
    s.takeRequest = { s with host := { s.host with draws := s.host.draws + 1 } } := by
  simp only [State.takeRequest, h]

/-- Settles O59: a step takes the request it serves off the schedule, or counts the draw where there is none. -/
theorem stepServesTheHostInOrder : Obligations.StepServesTheHostInOrder := by
  refine ⟨fun s r rest h => ?scheduled, fun s h => ?beyond⟩
  case scheduled => rw [step, State.takeRequest_cons h, State.nextRequest_cons h]
  case beyond => rw [step, State.takeRequest_nil h, State.nextRequest_nil h]

end Sys2Proof.Machine

namespace Sys2Proof

/-! ## The words of the decoder vectors (`95_test_vectors.md`) -/

theorem decode_eq_some_of_encode {w : Word} {i : Instr} (hw : encode i = w) (hi : i.wellFormed = true) :
    decode w = some i := hw ▸ decodeInvertsEncode i hi

/-- Settles O6: each defined word is the word of the instruction it decodes to, and each Undefined word stands in one of
the lists of R119. -/
theorem specWordsDecode : Obligations.SpecWordsDecode := by
  refine ⟨?w2toW6, ?groups0to9, ?group8, ?groupsBtoE, ?groupF, ?undefined⟩
  case undefined =>
    refine List.map_eq_replicate_iff.2 fun w hw => (undefinedWordsAreExactlyListed w).2 ?_
    fin_cases hw <;> decide
  all_goals
    with_reducible and_intros
    all_goals exact decode_eq_some_of_encode rfl rfl

end Sys2Proof
end
